-- ==== Sys2Proof/Word.lean ====
section
/-! DEFINITION. The unit of data of the core (spec/00_scope.md R4) and the byte of Memory (spec/10_state.md R21). -/

namespace Sys2Proof

/-- R4: an opaque 32-bit unsigned value with no tag; every stack entry, program word and Memory transfer is one. -/
abbrev Word := BitVec 32

/-- R21: one byte of Memory. -/
abbrev Byte := BitVec 8

end Sys2Proof
end

