-- ==== Sys2Proof/Syntax.lean ====
section
/-! DEFINITION. The closed set of 20 instructions (spec/30_encoding.md R42). No instruction has an operand field
(R45), so no constructor has an argument. -/

namespace Sys2Proof

/-- R42: the 20 instructions, in the order of the opcode map. A Word that is none of them is no instruction (R44)
and has no constructor: `decode` answers `none` for it. -/
inductive Instr where
  | load
  | write
  | loadConst0
  | loadConst1
  | duplicate
  | pop
  | jump
  | call
  /-- The mnemonic `Return` (a keyword of Lean). -/
  | ret
  | panic
  | addInt
  | subtractInt
  | multiplyInt
  | divideInt
  | moduloInt
  | addFloat
  | subtractFloat
  | multiplyFloat
  | divideFloat
  | moduloFloat
  deriving DecidableEq, Repr

/-- The whole instruction set in the order of R42. -/
def Instr.all : List Instr :=
  [.load, .write, .loadConst0, .loadConst1, .duplicate, .pop, .jump, .call, .ret, .panic,
   .addInt, .subtractInt, .multiplyInt, .divideInt, .moduloInt,
   .addFloat, .subtractFloat, .multiplyFloat, .divideFloat, .moduloFloat]

/-- The five functions of the parameter `FOPS` (spec/00_scope.md R6). -/
inductive FloatOp where
  | fadd
  | fsub
  | fmul
  | fdiv
  | frem
  deriving DecidableEq, Repr

end Sys2Proof
end

