-- ==== Sys2Proof/Config.lean ====
section
/-! DEFINITION. What an implementation of the core fixes (spec/00_scope.md R6, spec/92_eei_decisions.md): the
parameters, as plain data, and the free values of the machine: the pattern of a NaN result, and what the field of a
frame's bound holds of a number too wide for it. -/

namespace Sys2Proof

/-- R6, D1: `OPMAP`, the map from the 20 mnemonics to opcode Words, one field for each. That it is injective is
checked by `OpMap.wellFormed`. The default numbers are `defaultOpMap` of Decode. -/
structure OpMap where
  load : Word
  write : Word
  loadConst0 : Word
  loadConst1 : Word
  duplicate : Word
  pop : Word
  jump : Word
  call : Word
  ret : Word
  panic : Word
  addInt : Word
  subtractInt : Word
  multiplyInt : Word
  divideInt : Word
  moduloInt : Word
  addFloat : Word
  subtractFloat : Word
  multiplyFloat : Word
  divideFloat : Word
  moduloFloat : Word
  deriving DecidableEq, Repr

/-- R6: the parameters fixed when the core is built. `none` for a capacity is the spec's `unbounded`. Their ranges
are checked by `Params.wellFormed`. -/
structure Params where
  /-- `OPMAP` (D1). -/
  opmap : OpMap
  /-- `MEM_SIZE`, in bytes (D29). -/
  memSize : Nat
  /-- `STACK_CAP`, at least 2, or unbounded (D13). -/
  stackCap : Option Nat
  /-- `FRAME_CAP`, at least 1, or unbounded (D14). -/
  frameCap : Option Nat
  deriving DecidableEq, Repr

/-- R67, D16, U13: the sign bit of a NaN result, a FREE VALUE: a function of the operation and its two operand
Words, and nothing else is known of it (log entry 6). -/
opaque Config.nanSign : FloatOp → Word → Word → Bool

/-- R67, D16, U13: the fraction of a NaN result less one, a FREE VALUE: any of the `2^23 - 1` non-zero fractions
(log entry 6). -/
opaque Config.nanPayload : FloatOp → Word → Word → Fin 8388607

/-- R18: with an unbounded operand stack a frame's bound is 32 bits wide, and the spec does not state what it holds
of a depth of `2^32` or more. A FREE VALUE: a function of that depth, and nothing else is known of it (log
entry 7). -/
opaque Config.overwideBound : Nat → BitVec 32

end Sys2Proof
end

