-- ==== Sys2Proof/Decode.lean ====
section
/-! DEFINITION. The decoder and the encoder (spec/30_encoding.md R40 to R46): format W, the whole 32-bit Word is
the opcode number. -/

namespace Sys2Proof

/-- R42, D1: the default `OPMAP`, the position of each instruction in the source's table, counted from 0. -/
def defaultOpMap : OpMap where
  load := 0x00000000#32
  write := 0x00000001#32
  loadConst0 := 0x00000002#32
  loadConst1 := 0x00000003#32
  duplicate := 0x00000004#32
  pop := 0x00000005#32
  jump := 0x00000006#32
  call := 0x00000007#32
  ret := 0x00000008#32
  panic := 0x00000009#32
  addInt := 0x0000000A#32
  subtractInt := 0x0000000B#32
  multiplyInt := 0x0000000C#32
  divideInt := 0x0000000D#32
  moduloInt := 0x0000000E#32
  addFloat := 0x0000000F#32
  subtractFloat := 0x00000010#32
  multiplyFloat := 0x00000011#32
  divideFloat := 0x00000012#32
  moduloFloat := 0x00000013#32

/-- `OPMAP(I)`: the opcode Word the map gives an instruction. -/
def OpMap.word (m : OpMap) : Instr → Word
  | .load => m.load
  | .write => m.write
  | .loadConst0 => m.loadConst0
  | .loadConst1 => m.loadConst1
  | .duplicate => m.duplicate
  | .pop => m.pop
  | .jump => m.jump
  | .call => m.call
  | .ret => m.ret
  | .panic => m.panic
  | .addInt => m.addInt
  | .subtractInt => m.subtractInt
  | .multiplyInt => m.multiplyInt
  | .divideInt => m.divideInt
  | .moduloInt => m.moduloInt
  | .addFloat => m.addFloat
  | .subtractFloat => m.subtractFloat
  | .multiplyFloat => m.multiplyFloat
  | .divideFloat => m.divideFloat
  | .moduloFloat => m.moduloFloat

/-- R43: `decode(w) = some I` when `OPMAP(I) = w`, else `none`, which is "no instruction" (R44). All 32 bits are
compared (R41). For an injective map at most one instruction matches. -/
def decode (m : OpMap) (w : Word) : Option Instr :=
  Instr.all.find? fun i => m.word i == w

/-- The one Word of an instruction: format W holds the opcode number and nothing else (R41, R45). -/
def encode (m : OpMap) (i : Instr) : Word :=
  m.word i

/-- The instruction the decoder reads, under the default `OPMAP`, from the bits `w` numbered as
spec/opcode_table.json numbers them. An instruction is one 32-bit Word and the fetch of a whole Word has no byte
order (R41), so the bits are that Word; bits at `nbits` and above are 0. -/
def decodeTableWord (nbits w : Nat) : Option Instr :=
  decode defaultOpMap (BitVec.ofNat 32 (w % 2 ^ nbits))

end Sys2Proof
end

