-- ==== Sys2Proof/WellFormed.lean ====
section
/-! DEFINITION. The checks on what the core is given: the ranges of the parameters and of the program
(spec/00_scope.md R6). An instruction has no operand, so every term of `Instr` is well formed (spec/30_encoding.md
R45). -/

namespace Sys2Proof

/-- R45: an instruction has no operand that could be out of range. -/
def Instr.wellFormed (_ : Instr) : Bool :=
  true

/-- D1: `OPMAP` is injective: its 20 Words are pairwise different. -/
def OpMap.wellFormed (m : OpMap) : Bool :=
  decide (Instr.all.map m.word).Nodup

/-- D13, D14: a capacity is unbounded or at least `least`. -/
def capacityWellFormed (least : Nat) (cap : Option Nat) : Bool :=
  match cap with
  | none => true
  | some c => decide (least ≤ c)

/-- R6: `OPMAP` injective, `MEM_SIZE <= 2^32`, `STACK_CAP >= 2`, `FRAME_CAP >= 1`. -/
def Params.wellFormed (p : Params) : Bool :=
  p.opmap.wellFormed && decide (p.memSize ≤ 2 ^ 32) &&
    capacityWellFormed 2 p.stackCap && capacityWellFormed 1 p.frameCap

/-- R6, D28: `PROG_LEN <= 2^32 - 1`. -/
def programWellFormed (prog : List Word) : Bool :=
  decide (prog.length < 2 ^ 32)

end Sys2Proof
end

