-- ==== Sys2Proof/Machine/State.lean ====
section
/-! DEFINITION. The architectural state `(ip, S, F, M, STATUS, CAUSE)` (spec/10_state.md R10 to R28) with the
program and the parameters the step takes (spec/00_scope.md R6), and the state after reset (R27). -/

namespace Sys2Proof.Machine

/-- R18: a call frame. `bound` is the operand-stack depth when the frame was opened, `resume` the program index to
resume at. The width of `bound` depends on `STACK_CAP`, so it is a number here: `recordedBound` of Ops writes only
what the field of R18 holds, and `State.Inv` says that it holds no more. -/
structure Frame where
  bound : Nat
  resume : Word
  deriving DecidableEq, Repr

/-- R22: `STATUS`. -/
inductive Status where
  /-- `RUN` (0): the core executes instructions. -/
  | run
  /-- `END` (1): normal termination. -/
  | ended
  /-- `PANIC` (2): a Panic executed. -/
  | panic
  /-- `FAULT` (3): a fatal fault; `CAUSE` says which. -/
  | fault
  deriving DecidableEq, Repr

/-- R23: `CAUSE`. The values 5 to 7 are never written and have no name (U20). -/
inductive Cause where
  /-- `NONE` (0). -/
  | none
  /-- `DIV_ZERO` (1): DivideInt, ModuloInt with divisor 0. -/
  | divZero
  /-- `MEM_RANGE` (2): Load, Write with an address outside Memory. -/
  | memRange
  /-- `STACK_OVERFLOW` (3): LoadConst0, LoadConst1 with a full operand stack. -/
  | stackOverflow
  /-- `FRAME_OVERFLOW` (4): Call with a full frame stack. -/
  | frameOverflow
  deriving DecidableEq, Repr

/-- R21: the Memory, as (address, byte) cells in the canonical form `Memory.wf`: addresses strictly rising, no cell
that holds 0x00, which is what an unlisted address reads as (R27, R95). -/
abbrev Memory := List Host.Cell

/-- The whole state. `params` and `prog` are the parameters and the input of the step, which no step changes (log
entries 2 and 3); the other six fields are the state tuple of the spec. -/
structure State where
  /-- The parameters of R6. -/
  params : Params
  /-- R11: `PROG`, and `PROG_LEN` as its length. -/
  prog : List Word
  /-- R12: the instruction pointer, a word index. -/
  ip : Word
  /-- R14: the operand stack `S`, TOP FIRST (log entry 1). -/
  stack : List Word
  /-- R18: the frame stack `F`, INNERMOST FIRST (log entry 1). -/
  frames : List Frame
  /-- R21: the Memory `M`. -/
  mem : Memory
  /-- R22: `STATUS`. -/
  status : Status
  /-- R23: `CAUSE`. -/
  cause : Cause
  deriving DecidableEq, Repr

/-- The reasons for which the model itself would stop a step. There are none: every fatal condition of the core is
a STATE with `STATUS = FAULT` or `PANIC`, entered by a next state (R80, R86; log entry 8), so nothing raises one,
which is safe. -/
inductive Fault where
  deriving DecidableEq, Repr

/-- The reasons for which the model itself would give an instruction no meaning. -/
inductive Refusal where
  /-- Raised by an arm of `exec` whose instruction has no meaning yet; no arm is left, so nothing raises it (safe). -/
  | notModelled (mnemonic : String)
  deriving DecidableEq, Repr

/-- What a meaning and a step answer. -/
abbrev Result := Host.Outcome State Fault Refusal

/-- The reference parameters: the default `OPMAP` (D1) and `MEM_SIZE` (D29), and both capacities unbounded
(DESIGN CHOICE, log entry 4). -/
def Params.reference : Params where
  opmap := defaultOpMap
  memSize := 1024
  stackCap := none
  frameCap := none

/-- R27, R95: the state after reset of a core built with the parameters `p` whose program port holds `prog`. -/
def State.resetWith (p : Params) (prog : List Word) : State where
  params := p
  prog := prog
  ip := 0#32
  stack := []
  frames := []
  mem := []
  status := .run
  cause := .none

/-- R27: the machine right after reset, with the reference parameters and no program placed (log entries 3, 4
and 5). -/
def State.reset : State :=
  State.resetWith Params.reference []

end Sys2Proof.Machine
end

