-- ==== Sys2Proof/Machine/Ops.lean ====
section
/-! DEFINITION. The named operations over memory, the stacks and the halting registers, and the outputs of the
core. -/

namespace Sys2Proof.Machine

/-! ### Memory (spec/20_memory.md) -/

/-- The canonical form of a memory: addresses strictly rising and no cell that holds what an unlisted address reads
as. -/
abbrev Memory.wf (m : Memory) : Prop :=
  m.Pairwise (fun c d => c.1 < d.1) ∧ ∀ c ∈ m, c.2 ≠ 0#8

/-- `M[a]`. R27, R35, R95: a byte not written since reset reads 0x00. -/
def Memory.readByte (m : Memory) (a : Nat) : Byte :=
  match m with
  | [] => 0#8
  | (b, v) :: rest => if b = a then v else Memory.readByte rest a

/-- The cell `c` put before the first cell with a greater address. -/
def insertCell (m : Memory) (c : Host.Cell) : Memory :=
  match m with
  | [] => [c]
  | d :: rest => if c.1 < d.1 then c :: d :: rest else d :: insertCell rest c

/-- `M[a] <- v`, keeping the canonical form: the cell of `a` is removed, and put back with `v` unless `v` is what an
unlisted address reads as. -/
def Memory.writeByte (m : Memory) (a : Nat) (v : Byte) : Memory :=
  let others := m.filter fun c => c.1 != a
  if v = 0#8 then others else insertCell others (a, v)

/-- R30, R31: `MemRead(addr, 4)`, the Word whose least significant byte is at `addr`. -/
def Memory.readWord (m : Memory) (addr : Nat) : Word :=
  m.readByte (addr + 3) ++ m.readByte (addr + 2) ++ m.readByte (addr + 1) ++ m.readByte addr

/-- Byte `k` of a Word, byte 0 the least significant. -/
def wordByte (v : Word) (k : Nat) : Byte :=
  v.extractLsb' (8 * k) 8

/-- R30, R32: `MemWrite(addr, 4, v)`. -/
def Memory.writeWord (m : Memory) (addr : Nat) (v : Word) : Memory :=
  (((m.writeByte addr (wordByte v 0)).writeByte (addr + 1) (wordByte v 1)).writeByte
    (addr + 2) (wordByte v 2)).writeByte (addr + 3) (wordByte v 3)

/-- R34: the access at `addr` lies in Memory; the sum does not wrap. -/
def inMemory (p : Params) (addr : Word) : Bool :=
  decide (addr.toNat + 4 ≤ p.memSize)

/-! ### The stacks (spec/10_state.md) -/

/-- The depth of a stack equals its capacity; never so when it is unbounded (R17, R20). -/
def atCapacity (cap : Option Nat) (depth : Nat) : Bool :=
  cap == some depth

/-- R14: `depth = |S|`; also the output `depth` of R82. -/
def State.depth (s : State) : Nat :=
  s.stack.length

/-- R18, R55: what the bound of a frame opened at a depth holds. A field wide enough for `STACK_CAP` holds the depth.
With `STACK_CAP` unbounded the field is 32 bits: it holds a depth below `2^32`, and a free 32-bit value for a greater
one (log entry 7). -/
def recordedBound (p : Params) (depth : Nat) : Nat :=
  match p.stackCap with
  | some _ => depth
  | none => if depth < 2 ^ 32 then depth else (Config.overwideBound depth).toNat

/-- R56: `S[0 .. bound-1]` when `depth > bound`, else the stack as it is; the list is top first. -/
def truncate (bound : Nat) (stack : List Word) : List Word :=
  stack.drop (stack.length - bound)

/-- R52: the entry `n` places below the top, 0 below the bottom; the list is top first. -/
def entryBelowTop (stack : List Word) (n : Word) : Word :=
  (stack[n.toNat]?).getD 0#32

/-! ### Halting (spec/60_exceptions.md): the one way a fatal condition is taken. There is no return from it (R90);
only reset leaves a halted state (R80). -/

/-- R86: `raise Fault(cause)`: `STATUS <- FAULT`, `CAUSE <- cause`, nothing else. -/
def raiseFault (c : Cause) (s : State) : State :=
  { s with status := .fault, cause := c }

/-- R57, R86: `STATUS <- PANIC`, nothing else. -/
def enterPanic (s : State) : State :=
  { s with status := .panic }

/-- R75: `STATUS <- END`, nothing else. -/
def enterEnd (s : State) : State :=
  { s with status := .ended }

/-- R95: reset asserted, in whatever state: the reset state with the program port and the parameters as they are
(log entry 16). -/
def State.resetCore (s : State) : State :=
  State.resetWith s.params s.prog

/-! ### The outputs of the core (spec/46_fetch_execute.md R82, R83) -/

/-- R22: the two bits of `STATUS`. -/
def Status.code : Status → BitVec 2
  | .run => 0#2
  | .ended => 1#2
  | .panic => 2#2
  | .fault => 3#2

/-- R23: the three bits of `CAUSE`. -/
def Cause.code : Cause → BitVec 3
  | .none => 0#3
  | .divZero => 1#3
  | .memRange => 2#3
  | .stackOverflow => 3#3
  | .frameOverflow => 4#3

/-- R82: the output `prog_addr`. -/
def State.progAddr (s : State) : Word :=
  s.ip

/-- R82: the input `prog_len`. -/
def State.progLen (s : State) : Nat :=
  s.prog.length

/-- R82: the output `status`. -/
def State.statusPort (s : State) : BitVec 2 :=
  s.status.code

/-- R82: the output `cause`. -/
def State.causePort (s : State) : BitVec 3 :=
  s.cause.code

/-- R83: the output `result`: the top of the operand stack, 0 when it is empty. -/
def State.result (s : State) : Word :=
  s.stack.head?.getD 0#32

end Sys2Proof.Machine
end

