-- ==== Sys2Proof/Machine/Operands.lean ====
section
/-! DEFINITION. The operand forms: an instruction takes its operands from the top of the operand stack, all of them
or none (spec/10_state.md R16). The core has no flags, so there is no flag computation (R25). -/

namespace Sys2Proof.Machine

/-- R16, R42: `k`, how many operand-stack entries an instruction needs. -/
def operandsNeeded : Instr → Nat
  | .load => 1
  | .write => 2
  | .loadConst0 => 0
  | .loadConst1 => 0
  | .duplicate => 1
  | .pop => 1
  | .jump => 1
  | .call => 1
  | .ret => 0
  | .panic => 0
  | .addInt => 2
  | .subtractInt => 2
  | .multiplyInt => 2
  | .divideInt => 2
  | .moduloInt => 2
  | .addFloat => 2
  | .subtractFloat => 2
  | .multiplyFloat => 2
  | .divideFloat => 2
  | .moduloFloat => 2

/-- `k = 1`: the top and the stack beneath it; no effect on an empty stack (R16). -/
def withTop (s : State) (effect : Word → List Word → State) : Result :=
  match s.stack with
  | v :: rest => .next (effect v rest)
  | [] => .next s

/-- `k = 2`: the entry beneath the top, the top, and the stack beneath both; no effect with fewer than two entries,
and the one that is present stays (R16, C10). -/
def withTopTwo (s : State) (effect : Word → Word → List Word → State) : Result :=
  match s.stack with
  | b :: a :: rest => .next (effect a b rest)
  | [_] => .next s
  | [] => .next s

/-- R59, R65: `b` is the top and `a` the entry beneath it; `a OP b` replaces both. -/
def replaceTwo (s : State) (op : Word → Word → Word) : Result :=
  withTopTwo s fun a b rest => { s with stack := op a b :: rest }

/-- R63, R64: as `replaceTwo`, with the fault `DIV_ZERO` for `b = 0`. -/
def replaceTwoNonzero (s : State) (op : Word → Word → Word) : Result :=
  withTopTwo s fun a b rest =>
    if b = 0#32 then raiseFault .divZero s else { s with stack := op a b :: rest }

/-- R17: push a literal, or the fault `STACK_OVERFLOW` on a full stack. -/
def pushLiteral (s : State) (v : Word) : Result :=
  if atCapacity s.params.stackCap s.depth then .next (raiseFault .stackOverflow s)
  else .next { s with stack := v :: s.stack }

end Sys2Proof.Machine
end

