-- ==== Sys2Proof/Machine/ControlInstrs.lean ====
section
/-! DEFINITION. Control transfer (spec/43_control_transfer.md). While an instruction executes, `ip` is its own
index (spec/10_state.md R12); the advance is made after it, by `advance` of FetchExecute (R77). -/

namespace Sys2Proof.Machine

/-- R54. -/
def execJump (s : State) : Result :=
  withTop s fun t rest => { s with stack := rest, ip := t }

/-- R55: the bound is the depth after the target is popped (D19), in a field of the width of R18; the resume point is
the next index (D4). Underflow is checked before the full frame stack (R88). -/
def execCall (s : State) : Result :=
  withTop s fun t rest =>
    if atCapacity s.params.frameCap s.frames.length then raiseFault .frameOverflow s
    else
      { s with
        stack := rest
        frames := { bound := recordedBound s.params rest.length, resume := s.ip + 1#32 } :: s.frames
        ip := t }

/-- R56: no effect without a frame (D12); the stack is cut to the bound and never lengthened (D20). -/
def execReturn (s : State) : Result :=
  match s.frames with
  | [] => .next s
  | f :: outer => .next { s with stack := truncate f.bound s.stack, frames := outer, ip := f.resume }

/-- R57. -/
def execPanic (s : State) : Result :=
  .next (enterPanic s)

end Sys2Proof.Machine
end

