-- ==== Sys2Proof/Machine/Float.lean ====
section
/-! DEFINITION. The parameter `FOPS` (spec/00_scope.md R6): the five binary32 functions of spec/45_float_arith.md
R65 to R68. Every finite binary32 number is a whole number of UNITS of `2^-149`, the smallest subnormal, so exact
results are computed on natural numbers and rounded once. -/

namespace Sys2Proof.Machine

/-! ### The layout of R65 -/

/-- Bit 31, the sign. -/
def floatSign (w : Word) : Bool :=
  decide (2 ^ 31 ≤ w.toNat)

/-- Bits 30:23, the biased exponent. -/
def floatExponent (w : Word) : Nat :=
  w.toNat / 2 ^ 23 % 2 ^ 8

/-- Bits 22:0, the fraction. -/
def floatFraction (w : Word) : Nat :=
  w.toNat % 2 ^ 23

/-- A binary32 datum: a NaN of any kind, an infinity, or a finite number, whose magnitude is `units * 2^-149`. -/
inductive FloatDatum where
  | nan
  | infinite (negative : Bool)
  | finite (negative : Bool) (units : Nat)
  deriving DecidableEq, Repr

/-- R65: the datum a Word is the bit pattern of. Exponent 255 is a NaN or an infinity; exponent 0 a zero or a
subnormal; any other the number `1.fraction * 2^(exponent - 127)`, which is `(2^23 + fraction) * 2^(exponent - 1)`
units. -/
def unpackFloat (w : Word) : FloatDatum :=
  if floatExponent w = 255 then
    if floatFraction w = 0 then .infinite (floatSign w) else .nan
  else if floatExponent w = 0 then .finite (floatSign w) (floatFraction w)
  else .finite (floatSign w) ((2 ^ 23 + floatFraction w) * 2 ^ (floatExponent w - 1))

/-- The Word of a sign and the bits 30:0. -/
def signedPattern (negative : Bool) (magnitude : Nat) : Word :=
  BitVec.ofNat 32 ((if negative then 2 ^ 31 else 0) + magnitude)

/-- Bits 30:0 of an infinity. -/
def infinityPattern : Nat :=
  255 * 2 ^ 23

/-! ### Rounding (R66): once, to nearest, ties to even -/

/-- The whole number nearest to `num / den`, the even one of two that are equally near. -/
def divideToNearestEven (num den : Nat) : Nat :=
  let q := num / den
  let r := num % den
  if 2 * r < den then q
  else if den < 2 * r then q + 1
  else q + q % 2

/-- Bits 30:0 of the binary32 number nearest to `num / den` units. With `2^(23 + k)` the power of two at or below
the value (`k = 0` for all smaller ones, which gives the subnormals), the numbers near it are `2^k` units apart; a
multiple `m <= 2^24` of that spacing has the pattern `k * 2^23 + m`, and what would lie at or above the pattern of
infinity is infinity. -/
def roundMagnitude (num den : Nat) : Nat :=
  let k := Nat.log2 (num / den) - 23
  min (k * 2 ^ 23 + divideToNearestEven num (den * 2 ^ k)) infinityPattern

/-- The rounded Word of `num / den` units with the given sign. -/
def roundedPattern (negative : Bool) (num den : Nat) : Word :=
  signedPattern negative (roundMagnitude num den)

/-! ### The five operations; `none` stands for a NaN result (R67) -/

/-- A finite number as a signed count of units. -/
def signedUnits (negative : Bool) (units : Nat) : Int :=
  if negative then -(units : Int) else (units : Int)

/-- R66: the sum. An exact zero is `+0` unless both operands are negative (zeros then). -/
def sumOf : FloatDatum → FloatDatum → Option Word
  | .nan, _ => none
  | .infinite _, .nan => none
  | .finite _ _, .nan => none
  | .infinite n, .infinite m => if n = m then some (signedPattern n infinityPattern) else none
  | .infinite n, .finite _ _ => some (signedPattern n infinityPattern)
  | .finite _ _, .infinite m => some (signedPattern m infinityPattern)
  | .finite n u, .finite m v =>
    let z := signedUnits n u + signedUnits m v
    if z = 0 then some (signedPattern (n && m) 0) else some (roundedPattern (decide (z < 0)) z.natAbs 1)

/-- The same datum with its sign inverted. -/
def negateDatum : FloatDatum → FloatDatum
  | .nan => .nan
  | .infinite n => .infinite (!n)
  | .finite n u => .finite (!n) u

/-- R66: the product; its sign is the exclusive-or of the operand signs. R67: `0 * inf` is a NaN. -/
def productOf : FloatDatum → FloatDatum → Option Word
  | .nan, _ => none
  | .infinite _, .nan => none
  | .finite _ _, .nan => none
  | .infinite n, .infinite m => some (signedPattern (n ^^ m) infinityPattern)
  | .infinite n, .finite m v => if v = 0 then none else some (signedPattern (n ^^ m) infinityPattern)
  | .finite n u, .infinite m => if u = 0 then none else some (signedPattern (n ^^ m) infinityPattern)
  | .finite n u, .finite m v => some (roundedPattern (n ^^ m) (u * v) (2 ^ 149))

/-- R66, R72: the quotient. R67: `0 / 0` and `inf / inf` are NaNs; another number divided by a zero is an
infinity. -/
def quotientOf : FloatDatum → FloatDatum → Option Word
  | .nan, _ => none
  | .infinite _, .nan => none
  | .finite _ _, .nan => none
  | .infinite _, .infinite _ => none
  | .infinite n, .finite m _ => some (signedPattern (n ^^ m) infinityPattern)
  | .finite n _, .infinite m => some (signedPattern (n ^^ m) 0)
  | .finite n u, .finite m v =>
    if v = 0 then
      if u = 0 then none else some (signedPattern (n ^^ m) infinityPattern)
    else some (roundedPattern (n ^^ m) (u * 2 ^ 149) v)

/-- R68: the remainder of truncated division, exact, with the sign of the dividend `x`. -/
def remainderOf : FloatDatum → FloatDatum → Option Word
  | .nan, _ => none
  | .infinite _, _ => none
  | .finite _ _, .nan => none
  | .finite n u, .infinite _ => some (roundedPattern n u 1)
  | .finite n u, .finite _ v => if v = 0 then none else some (roundedPattern n (u % v) 1)

/-! ### NaN results (R67) -/

/-- The NaN pattern of a sign and a non-zero fraction, given less one: every NaN Word, and nothing but NaN Words. -/
def nanPattern (negative : Bool) (payload : Fin 8388607) : Word :=
  signedPattern negative (infinityPattern + (payload.val + 1))

/-- R67, U13: the free draw among the NaN patterns, a function of the operation and the operands alone (log
entry 6). -/
def nanResult (op : FloatOp) (a b : Word) : Word :=
  nanPattern (Config.nanSign op a b) (Config.nanPayload op a b)

/-! ### `FOPS` -/

/-- R66, R67, R69: `fadd(a, b)`. -/
def fadd (a b : Word) : Word :=
  (sumOf (unpackFloat a) (unpackFloat b)).getD (nanResult .fadd a b)

/-- R66, R67, R70: `fsub(a, b)`, the sum with the sign of `b` inverted. -/
def fsub (a b : Word) : Word :=
  (sumOf (unpackFloat a) (negateDatum (unpackFloat b))).getD (nanResult .fsub a b)

/-- R66, R67, R71: `fmul(a, b)`. -/
def fmul (a b : Word) : Word :=
  (productOf (unpackFloat a) (unpackFloat b)).getD (nanResult .fmul a b)

/-- R66, R67, R72: `fdiv(a, b)`. -/
def fdiv (a b : Word) : Word :=
  (quotientOf (unpackFloat a) (unpackFloat b)).getD (nanResult .fdiv a b)

/-- R67, R68, R73: `frem(a, b)`. -/
def frem (a b : Word) : Word :=
  (remainderOf (unpackFloat a) (unpackFloat b)).getD (nanResult .frem a b)

end Sys2Proof.Machine
end

