-- ==== Sys2Proof/Machine/FloatInstrs.lean ====
section
/-! DEFINITION. Float arithmetic (spec/45_float_arith.md): `a OP b` with `b` on top, never a fault (R65). -/

namespace Sys2Proof.Machine

/-- R69. -/
def execAddFloat (s : State) : Result :=
  replaceTwo s fadd

/-- R70. -/
def execSubtractFloat (s : State) : Result :=
  replaceTwo s fsub

/-- R71. -/
def execMultiplyFloat (s : State) : Result :=
  replaceTwo s fmul

/-- R72. -/
def execDivideFloat (s : State) : Result :=
  replaceTwo s fdiv

/-- R73. -/
def execModuloFloat (s : State) : Result :=
  replaceTwo s frem

end Sys2Proof.Machine
end

