-- ==== Sys2Proof/Machine/IntInstrs.lean ====
section
/-! DEFINITION. Integer arithmetic (spec/44_integer_arith.md): unsigned 32-bit, `a OP b` with `b` on top (R59). -/

namespace Sys2Proof.Machine

/-- R60: `(a + b) mod 2^32`. -/
def execAddInt (s : State) : Result :=
  replaceTwo s fun a b => a + b

/-- R61: `(a - b) mod 2^32`. -/
def execSubtractInt (s : State) : Result :=
  replaceTwo s fun a b => a - b

/-- R62: `(a * b) mod 2^32`. -/
def execMultiplyInt (s : State) : Result :=
  replaceTwo s fun a b => a * b

/-- R63: `floor(a / b)`; `DIV_ZERO` for `b = 0`. -/
def execDivideInt (s : State) : Result :=
  replaceTwoNonzero s fun a b => a / b

/-- R64: `a mod b`; `DIV_ZERO` for `b = 0`. -/
def execModuloInt (s : State) : Result :=
  replaceTwoNonzero s fun a b => a % b

end Sys2Proof.Machine
end

