-- ==== Sys2Proof/Machine/MemoryInstrs.lean ====
section
/-! DEFINITION. Load and Write (spec/40_memory_ops.md). -/

namespace Sys2Proof.Machine

/-- R48: the Word at the popped byte address takes the address's place. -/
def execLoad (s : State) : Result :=
  withTop s fun addr rest =>
    if inMemory s.params addr then { s with stack := s.mem.readWord addr.toNat :: rest }
    else raiseFault .memRange s

/-- R49: the top is the value, the entry beneath it the byte address; both are removed. -/
def execWrite (s : State) : Result :=
  withTopTwo s fun addr v rest =>
    if inMemory s.params addr then { s with stack := rest, mem := s.mem.writeWord addr.toNat v }
    else raiseFault .memRange s

end Sys2Proof.Machine
end

