-- ==== Sys2Proof/Machine/StackInstrs.lean ====
section
/-! DEFINITION. The stack literals (spec/41_stack_literals.md) and the stack shape instructions
(spec/42_stack_shape.md). -/

namespace Sys2Proof.Machine

/-- R50. -/
def execLoadConst0 (s : State) : Result :=
  pushLiteral s 0x00000000#32

/-- R51. -/
def execLoadConst1 (s : State) : Result :=
  pushLiteral s 0x00000001#32

/-- R52: pop the count `n`, push a copy of the entry `n` below the new top, 0 below the bottom (D6). -/
def execDuplicate (s : State) : Result :=
  withTop s fun n rest => { s with stack := entryBelowTop rest n :: rest }

/-- R53. -/
def execPop (s : State) : Result :=
  withTop s fun _ rest => { s with stack := rest }

end Sys2Proof.Machine
end

