-- ==== Sys2Proof/Machine/Dispatch.lean ====
section
/-! DEFINITION. The execute phase of the step: one arm for each instruction (spec/46_fetch_execute.md R74). -/

namespace Sys2Proof.Machine

/-- R74: `execute I`, before the advance of the pointer. -/
def exec (i : Instr) (s : State) : Host.Outcome State Fault Refusal :=
  match i with
  | .load => Sys2Proof.Machine.execLoad s
  | .write => Sys2Proof.Machine.execWrite s
  | .loadConst0 => Sys2Proof.Machine.execLoadConst0 s
  | .loadConst1 => Sys2Proof.Machine.execLoadConst1 s
  | .duplicate => Sys2Proof.Machine.execDuplicate s
  | .pop => Sys2Proof.Machine.execPop s
  | .jump => Sys2Proof.Machine.execJump s
  | .call => Sys2Proof.Machine.execCall s
  | .ret => Sys2Proof.Machine.execReturn s
  | .panic => Sys2Proof.Machine.execPanic s
  | .addInt => Sys2Proof.Machine.execAddInt s
  | .subtractInt => Sys2Proof.Machine.execSubtractInt s
  | .multiplyInt => Sys2Proof.Machine.execMultiplyInt s
  | .divideInt => Sys2Proof.Machine.execDivideInt s
  | .moduloInt => Sys2Proof.Machine.execModuloInt s
  | .addFloat => Sys2Proof.Machine.execAddFloat s
  | .subtractFloat => Sys2Proof.Machine.execSubtractFloat s
  | .multiplyFloat => Sys2Proof.Machine.execMultiplyFloat s
  | .divideFloat => Sys2Proof.Machine.execDivideFloat s
  | .moduloFloat => Sys2Proof.Machine.execModuloFloat s

end Sys2Proof.Machine
end

