-- ==== Sys2Proof/Machine/FetchExecute.lean ====
section
/-! DEFINITION. The fetch-execute state machine (spec/46_fetch_execute.md), with the execution of an instruction as
an argument: `step` applies it to `exec`. -/

namespace Sys2Proof.Machine

/-- R75, R76: `PROG[ip]`, and `none` when `ip >= PROG_LEN`, which is the terminal condition. -/
def fetch (s : State) : Option Word :=
  s.prog[s.ip.toNat]?

/-- R77: after the execute phase, the pointer advances by one when the core still runs and the pointer is what it
was before the instruction (`ip_before`, R26). -/
def advance (ipBefore : Word) (s : State) : State :=
  if s.status = .run ∧ s.ip = ipBefore then { s with ip := s.ip + 1#32 } else s

/-- R74: one step of a core that runs: terminal check, fetch, decode, execute, advance. -/
def runCycle (execute : Instr → State → Result) (s : State) : Result :=
  match fetch s with
  | none => .next (enterEnd s)
  | some w =>
    match decode s.params.opmap w with
    | none => .next (advance s.ip s)
    | some i =>
      match execute i s with
      | .next t => .next (advance s.ip t)
      | .fault r => .fault r
      | .refused r => .refused r

/-- R74, R80: the step function; a halted state is a fixed point. -/
def cycle (execute : Instr → State → Result) (s : State) : Result :=
  match s.status with
  | .run => runCycle execute s
  | .ended => .next s
  | .panic => .next s
  | .fault => .next s

/-- The program with the Word `w` at index `i`, padded up to it with the Word 0xFFFFFFFF when it is shorter. -/
def placeWord (prog : List Word) (i : Nat) (w : Word) : List Word :=
  if i < prog.length then prog.set i w
  else prog ++ (List.replicate (i - prog.length) 0xFFFFFFFF#32 ++ [w])

end Sys2Proof.Machine
end

