-- ==== Sys2Proof/Machine/Step.lean ====
section
/-! DEFINITION. The step function of the machine (spec/46_fetch_execute.md R74) and how the host places an
instruction for it. -/

namespace Sys2Proof.Machine

/-- R74: the whole behaviour of the core is the repeated application of this function. -/
def step (s : State) : Host.Outcome State Fault Refusal :=
  cycle exec s

/-- `s` with the instruction of bits `w` as the program word at `ip` and the core running: it stands for the
host's loading of a program (R82, R97; log entry 3). The program is padded up to `ip` where it is shorter. -/
def State.withFetchWord (s : State) (nbits w : Nat) : State :=
  { s with
    prog := placeWord s.prog s.ip.toNat (BitVec.ofNat 32 (w % 2 ^ nbits))
    status := .run }

end Sys2Proof.Machine
end

