-- ==== Sys2Proof/Safety.lean ====
section
/-! DEFINITION. The terms in which claims about the core are made: which instruction a step runs, what it means that
an instruction takes its effect, the invariant of the machine, and the reading of Words as binary32 numbers,
written from the spec's layout and not from the functions of Machine/Float.lean. -/

namespace Sys2Proof.Machine

/-! ### Running an instruction -/

/-- The core runs and the Word at its pointer decodes to `i` (R74 to R76). -/
abbrev AtInstr (s : State) (i : Instr) : Prop :=
  s.status = .run ∧ ∃ w, s.prog[s.ip.toNat]? = some w ∧ decode s.params.opmap w = some i

/-- The core runs and the Word at its pointer is no instruction (R44). -/
abbrev AtNoInstruction (s : State) : Prop :=
  s.status = .run ∧ ∃ w, s.prog[s.ip.toNat]? = some w ∧ decode s.params.opmap w = none

/-- In `s` the execute phase of `i` answers the next state `t`, and the step at `i` is `t` with the pointer
advanced by one (R77: the instruction did not change the pointer and the core still runs). -/
def CompletesAndAdvances (i : Instr) (s t : State) : Prop :=
  exec i s = .next t ∧ (AtInstr s i → step s = .next { t with ip := s.ip + 1#32 })

/-- In `s` the execute phase of `i` answers the next state `t`, and so does the step at `i`, with no advance (R77:
the core halted). -/
def CompletesInPlace (i : Instr) (s t : State) : Prop :=
  exec i s = .next t ∧ (AtInstr s i → step s = .next t)

/-- In `s` the execute phase of the transfer `i` answers the next state `t`, whose pointer is the target, and the
step at `i` is `t`, but for a target that is the instruction's own index, after which the pointer is advanced by
one (R77, R99). -/
def CompletesAndTransfers (i : Instr) (s t : State) : Prop :=
  exec i s = .next t ∧
    (AtInstr s i → step s = .next { t with ip := if t.ip = s.ip then s.ip + 1#32 else t.ip })

/-! ### The checks of an instruction (spec/60_exceptions.md R88) -/

/-- R88, check 3: too few operands, or for Return no frame. -/
def LacksItsInput (i : Instr) (s : State) : Prop :=
  s.stack.length < operandsNeeded i ∨ (i = .ret ∧ s.frames = [])

/-- R88, check 4: the fault condition of an instruction that has its operands; each instruction has at most one. -/
def FaultCondition (i : Instr) (s : State) (c : Cause) : Prop :=
  (c = .stackOverflow ∧ (i = .loadConst0 ∨ i = .loadConst1) ∧ s.params.stackCap = some s.stack.length) ∨
  (c = .frameOverflow ∧ i = .call ∧ s.params.frameCap = some s.frames.length) ∨
  (c = .memRange ∧ i = .load ∧ ∃ addr rest, s.stack = addr :: rest ∧ s.params.memSize < addr.toNat + 4) ∨
  (c = .memRange ∧ i = .write ∧ ∃ v addr rest, s.stack = v :: addr :: rest ∧ s.params.memSize < addr.toNat + 4) ∨
  (c = .divZero ∧ (i = .divideInt ∨ i = .moduloInt) ∧ s.stack.head? = some 0#32)

/-! ### The invariant -/

/-- A number that a capacity allows: any when it is unbounded (D13, D14). -/
abbrev Within (n : Nat) (cap : Option Nat) : Prop :=
  ∀ c, cap = some c → n ≤ c

/-- R18: a number that a frame's bound has the width for, as far as the width is fixed: 32 bits with an unbounded
operand stack, and wide enough for `STACK_CAP` otherwise. -/
abbrev FitsBoundWidth (p : Params) (n : Nat) : Prop :=
  p.stackCap = none → n < 2 ^ 32

/-- What every step keeps. -/
structure State.Inv (s : State) : Prop where
  /-- R6: the parameters are in range. -/
  params_ok : s.params.wellFormed = true
  /-- R6, D28: `PROG_LEN <= 2^32 - 1`. -/
  prog_ok : programWellFormed s.prog = true
  /-- The memory is in its canonical form. -/
  mem_canonical : s.mem.wf
  /-- R21: Memory is `MEM_SIZE` bytes. -/
  mem_in_range : ∀ c ∈ s.mem, c.1 < s.params.memSize
  /-- R14, R17: `depth <= STACK_CAP`. -/
  stack_fits : Within s.stack.length s.params.stackCap
  /-- R18, R20: `|F| <= FRAME_CAP`. -/
  frames_fit : Within s.frames.length s.params.frameCap
  /-- R18: a frame's bound is a number `0 .. STACK_CAP`. -/
  bounds_fit : ∀ f ∈ s.frames, Within f.bound s.params.stackCap
  /-- R18: a frame's bound is 32 bits wide when `STACK_CAP` is unbounded. -/
  bounds_have_their_width : ∀ f ∈ s.frames, FitsBoundWidth s.params f.bound
  /-- R55: a frame resumes after its Call, at an index `1 .. PROG_LEN`. -/
  resumes_after_a_call : ∀ f ∈ s.frames, 1 ≤ f.resume.toNat ∧ f.resume.toNat ≤ s.prog.length
  /-- R23: `CAUSE` is `NONE` but for `STATUS = FAULT`. -/
  cause_iff_fault : s.cause ≠ .none ↔ s.status = .fault
  /-- R75: a run that ended has its pointer past the program. -/
  ended_past_program : s.status = .ended → s.prog.length ≤ s.ip.toNat
  /-- R57, R86: a run that panicked or faulted has its pointer at the halting instruction. -/
  halted_in_program : s.status = .panic ∨ s.status = .fault → s.ip.toNat < s.prog.length

/-! ### Words as binary32 numbers (spec/45_float_arith.md R65) -/

/-- Bits 30:23. -/
abbrev exponentBits (w : Word) : BitVec 8 := w.extractLsb' 23 8

/-- Bits 22:0. -/
abbrev fractionBits (w : Word) : BitVec 23 := w.extractLsb' 0 23

/-- Bit 31. -/
abbrev isNegative (w : Word) : Bool := w.msb

/-- R65, R67: exponent 255 with a non-zero fraction. -/
abbrev IsNaN (w : Word) : Prop := exponentBits w = 255#8 ∧ fractionBits w ≠ 0#23

/-- R65: exponent 255 with fraction 0. -/
abbrev IsInfinite (w : Word) : Prop := exponentBits w = 255#8 ∧ fractionBits w = 0#23

/-- R65: any other exponent. -/
abbrev IsFinite (w : Word) : Prop := exponentBits w ≠ 255#8

/-- R65: exponent 0 with fraction 0. -/
abbrev IsZero (w : Word) : Prop := exponentBits w = 0#8 ∧ fractionBits w = 0#23

/-- The infinity of a sign. -/
def infinityWord (negative : Bool) : Word := if negative then 0xFF800000#32 else 0x7F800000#32

/-- The zero of a sign. -/
def zeroWord (negative : Bool) : Word := if negative then 0x80000000#32 else 0x00000000#32

/-- R65: `f32(w)` for a finite pattern: `± 0.fraction * 2^-126` for exponent 0, else
`± 1.fraction * 2^(exponent - 127)`. -/
def f32 (w : Word) : ℚ :=
  let fraction : ℚ := (fractionBits w).toNat / 2 ^ 23
  let magnitude : ℚ :=
    if exponentBits w = 0#8 then fraction * 2 ^ (-126 : ℤ)
    else (1 + fraction) * 2 ^ (((exponentBits w).toNat : ℤ) - 127)
  if isNegative w then -magnitude else magnitude

/-- R66, D16: `r` is the pattern of the non-zero real `x` rounded once to binary32, to nearest with ties to even.
From half a spacing above the greatest finite number on (`2^128 - 2^103`) that is the infinity of the sign of `x`
(log entry 13). Below, it is a finite number as near to `x` as any; if another is as near, the one with the even
pattern; and a result rounded to zero keeps the sign of `x`. -/
def RoundsToNearestEven (x : ℚ) (r : Word) : Prop :=
  if 2 ^ 128 - 2 ^ 103 ≤ |x| then r = infinityWord (decide (x < 0))
  else
    IsFinite r ∧ isNegative r = decide (x < 0) ∧
      ∀ w, IsFinite w →
        |f32 r - x| ≤ |f32 w - x| ∧ (|f32 w - x| = |f32 r - x| → f32 w ≠ f32 r → r.getLsbD 0 = false)

/-- R68: the whole part of a number, rounded toward zero. -/
def truncated (x : ℚ) : ℤ := if 0 ≤ x then ⌊x⌋ else ⌈x⌉

end Sys2Proof.Machine
end

