-- ==== Sys2Proof/Certificates/Slice0/Obligations.lean ====
section
/-! DEFINITION. The statements made about the model, for the provers. Stacks are top first: `b :: a :: rest` is the
spec's `[..., a, b]`; `rest.reverse` is its bottom-first form. -/

open Sys2Proof Sys2Proof.Machine

/-! ### Encoding -/

/-- R43: for every injective opcode map, `decode(w) = some I` exactly when `OPMAP(I) = w`, and `none` exactly when
the Word is no instruction's. -/
def Obligations.DecodeInvertsTheOpcodeMap : Prop :=
  ∀ m : OpMap, m.wellFormed = true →
    (∀ i w, decode m w = some i ↔ encode m i = w) ∧
      ∀ w, decode m w = none ↔ ∀ i, encode m i ≠ w

/-- R42: the rows of the opcode map: instruction, number, operands needed, change of depth. Return is not among
them, since its change of depth is "0 or less". -/
def Sys2Proof.opcodeRows : List (Instr × Nat × Nat × Int) :=
  [(.load, 0, 1, 0), (.write, 1, 2, -2), (.loadConst0, 2, 0, 1), (.loadConst1, 3, 0, 1), (.duplicate, 4, 1, 0),
   (.pop, 5, 1, -1), (.jump, 6, 1, -1), (.call, 7, 1, -1), (.panic, 9, 0, 0), (.addInt, 10, 2, -1),
   (.subtractInt, 11, 2, -1), (.multiplyInt, 12, 2, -1), (.divideInt, 13, 2, -1), (.moduloInt, 14, 2, -1),
   (.addFloat, 15, 2, -1), (.subtractFloat, 16, 2, -1), (.multiplyFloat, 17, 2, -1), (.divideFloat, 18, 2, -1),
   (.moduloFloat, 19, 2, -1)]

/-- R42 (the numbers are the spec's decision D1): the set is closed; each instruction has its number; with fewer
than `k` entries it has no effect; with `k` or more it answers a next state, and unless that is a fault the depth
changes by the table's amount (by 0 or less for Return). -/
def Obligations.OpcodeTableNumbersOperandsAndDepthChange : Prop :=
  (∀ i : Instr, i = .ret ∨ ∃ row ∈ opcodeRows, row.1 = i) ∧
  encode defaultOpMap .ret = 8#32 ∧
  (∀ s : State, s.status = .run →
    ∃ t, exec .ret s = .next t ∧ t.status = .run ∧ t.stack.length ≤ s.stack.length) ∧
  ∀ row ∈ opcodeRows,
    encode defaultOpMap row.1 = BitVec.ofNat 32 row.2.1 ∧
    ∀ s : State, s.status = .run →
      (s.stack.length < row.2.2.1 → exec row.1 s = .next s) ∧
      (row.2.2.1 ≤ s.stack.length → ∃ t, exec row.1 s = .next t ∧
        (t.status ≠ .fault → (t.stack.length : Int) = s.stack.length + row.2.2.2))

/-- R44, R78: under the default map every Word from 20 on is no instruction, and executing a Word that is no
instruction advances the pointer by one and changes nothing else. -/
def Obligations.WordsThatAreNoInstructionAreNoOps : Prop :=
  (∀ w, decode defaultOpMap w = none ↔ 20 ≤ w.toNat) ∧
    ∀ s, AtNoInstruction s → step s = .next { s with ip := s.ip + 1#32 }

/-- The Words of section 2.1 of the test vectors and one Word of each family decode as the opcode map says. -/
def Obligations.SampleWordsDecode : Prop :=
  decode defaultOpMap 0x00000000#32 = some .load ∧
  decode defaultOpMap 0x00000003#32 = some .loadConst1 ∧
  decode defaultOpMap 0x00000004#32 = some .duplicate ∧
  decode defaultOpMap 0x00000008#32 = some .ret ∧
  decode defaultOpMap 0x0000000A#32 = some .addInt ∧
  decode defaultOpMap 0x00000013#32 = some .moduloFloat ∧
  decode defaultOpMap 0x00000014#32 = none ∧
  decode defaultOpMap 0xFFFFFFFF#32 = none ∧
  decode defaultOpMap 0x0A000000#32 = none ∧
  decode defaultOpMap 0x0100000A#32 = none ∧
  decode defaultOpMap 0x8000000A#32 = none

/-! ### The step -/

/-- R74: the step function. Halted: nothing. Past the program: `STATUS <- END`. No instruction: the advance alone.
An instruction: its execution, and the advance by one when the core still runs and the pointer is what it was. -/
def Obligations.StepRunsTheDecodedInstruction : Prop :=
  ∀ s : State,
    (s.status ≠ .run → step s = .next s) ∧
    (s.status = .run → s.prog.length ≤ s.ip.toNat → step s = .next { s with status := .ended }) ∧
    (AtNoInstruction s → step s = .next { s with ip := s.ip + 1#32 }) ∧
    ∀ i, AtInstr s i → step s =
      match exec i s with
      | .next t => .next (if t.status = .run ∧ t.ip = s.ip then { t with ip := t.ip + 1#32 } else t)
      | .fault r => .fault r
      | .refused r => .refused r

/-- R74: the step function is total. In the terms of the host's interface, no instruction and no step ever answers
a fault or a refusal: every outcome the spec gives is a next state. -/
def Obligations.EveryStepAnswersANextState : Prop :=
  (∀ (i : Instr) (s : State), ∃ t, exec i s = .next t) ∧ ∀ s : State, ∃ t, step s = .next t

/-- R77: the consequences the rule lists. Every instruction but Jump, Call and Return is followed by the next index
while the core runs, and the pointer stays at one that halts it; every no-effect case and every Word that is no
instruction is followed by the next index; a transfer is followed by its target, but for its own index, after which
it falls through with its other effects made. -/
def Obligations.ThePointerAdvancesUnlessTheInstructionMovedIt : Prop :=
  (∀ s i, AtInstr s i → i ≠ .jump → i ≠ .call → i ≠ .ret →
    ∃ t, step s = .next t ∧ t.ip = if t.status = .run then s.ip + 1#32 else s.ip) ∧
  (∀ s i, AtInstr s i → (s.stack.length < operandsNeeded i ∨ (i = .ret ∧ s.frames = [])) →
    step s = .next { s with ip := s.ip + 1#32 }) ∧
  (∀ s, AtNoInstruction s → step s = .next { s with ip := s.ip + 1#32 }) ∧
  (∀ s v rest, AtInstr s .jump → s.stack = v :: rest →
    step s = .next { s with stack := rest, ip := if v = s.ip then s.ip + 1#32 else v }) ∧
  (∀ s v rest, AtInstr s .call → s.stack = v :: rest → s.params.frameCap ≠ some s.frames.length →
    ∃ b, (FitsBoundWidth s.params rest.length → b = rest.length) ∧
      step s = .next { s with
        stack := rest
        frames := { bound := b, resume := s.ip + 1#32 } :: s.frames
        ip := if v = s.ip then s.ip + 1#32 else v }) ∧
  (∀ s v rest, AtInstr s .call → s.stack = v :: rest → s.params.frameCap = some s.frames.length →
    ∃ t, step s = .next t ∧ t.status = .fault ∧ t.ip = s.ip) ∧
  ∀ s f outer, AtInstr s .ret → s.frames = f :: outer →
    ∃ t, step s = .next t ∧ t.frames = outer ∧ t.ip = if f.resume = s.ip then s.ip + 1#32 else f.resume

/-- R99: no step of a core that goes on running leaves the pointer where it was, so a transfer to its own index is
no idle loop. -/
def Obligations.EveryRunningStepMovesThePointer : Prop :=
  ∀ s t : State, s.status = .run → step s = .next t → t.status = .run → t.ip ≠ s.ip

/-- R13: the pointer changes only by a transfer's target, by the advance, which does not wrap, and by reset. -/
def Obligations.ThePointerChangesInThreeWays : Prop :=
  (∀ i s t, exec i s = .next t → i ≠ .jump → i ≠ .call → i ≠ .ret → t.ip = s.ip) ∧
  (∀ s t : State, programWellFormed s.prog = true → step s = .next t →
    t.ip = s.ip ∨
    (s.ip.toNat < s.prog.length ∧ t.ip.toNat = s.ip.toNat + 1) ∨
    ((AtInstr s .jump ∨ AtInstr s .call) ∧ s.stack.head? = some t.ip) ∨
    (AtInstr s .ret ∧ s.frames.head?.map Frame.resume = some t.ip)) ∧
  ∀ s : State, s.resetCore.ip = 0#32

/-- R80: a halted state is a fixed point of any number of steps; only reset leaves it. -/
def Obligations.HaltedStatesAreFixedPoints : Prop :=
  ∀ s : State, s.status ≠ .run →
    (∀ k, Host.Core.run Sys2Proof.core k s = .next s) ∧ s.resetCore.status = .run

/-- R76: a step reads of the program nothing but the Word at the pointer, and whether there is one. -/
def Obligations.AStepReadsOneProgramWord : Prop :=
  ∀ (s t : State) (prog : List Word), prog[s.ip.toNat]? = s.prog[s.ip.toNat]? → step s = .next t →
    step { s with prog := prog } = .next { t with prog := prog }

/-- The program is "immutable" and "read-only" and the parameters are fixed: no step, and so no run, changes
them. -/
def Obligations.ProgramAndParametersNeverChange : Prop :=
  ∀ (k : Nat) (s t : State), Host.Core.run Sys2Proof.core k s = .next t → t.prog = s.prog ∧ t.params = s.params

/-! ### Reset -/

/-- R27: the values of the state after reset, for every program and all parameters; asserting reset in any state
gives that state. -/
def Obligations.ResetPutsEveryPieceOfStateAtItsValue : Prop :=
  (∀ (p : Params) (prog : List Word),
    (State.resetWith p prog).ip = 0#32 ∧
    (State.resetWith p prog).stack = [] ∧
    (State.resetWith p prog).frames = [] ∧
    (∀ a, (State.resetWith p prog).mem.readByte a = 0#8) ∧
    (State.resetWith p prog).status = .run ∧
    (State.resetWith p prog).cause = .none) ∧
  ∀ s : State, s.resetCore = State.resetWith s.params s.prog

/-- R96: after reset the first step ends an empty program and otherwise is at the Word of index 0, whatever Word that
is: an instruction, which it runs, or none, which it passes over. A lone Panic halts at once with nothing changed. -/
def Obligations.TheFirstStepIsAtIndexZero : Prop :=
  (∀ p : Params, step (State.resetWith p []) = .next { State.resetWith p [] with status := .ended }) ∧
  (∀ p w ws i, decode p.opmap w = some i → AtInstr (State.resetWith p (w :: ws)) i) ∧
  (∀ p w ws, decode p.opmap w = none →
    AtNoInstruction (State.resetWith p (w :: ws)) ∧
    step (State.resetWith p (w :: ws)) = .next { State.resetWith p (w :: ws) with ip := 1#32 }) ∧
  ∀ p w, decode p.opmap w = some .panic →
    step (State.resetWith p [w]) = .next { State.resetWith p [w] with status := .panic }

/-! ### The invariant -/

/-- The machine invariant `State.Inv` (memory canonical and in range, stacks within their capacities, frames that
resume after a Call, `CAUSE` and the halted pointer as `STATUS` says) is kept by every step from every state. -/
def Obligations.EveryStepKeepsTheMachineInvariant : Prop :=
  ∀ s t : State, s.Inv → step s = .next t → t.Inv

/-- The invariant holds right after reset, for all parameters and every program in range. -/
def Obligations.ResetMeetsTheMachineInvariant : Prop :=
  (∀ p prog, p.wellFormed = true → programWellFormed prog = true → (State.resetWith p prog).Inv) ∧
    State.reset.Inv

/-! ### Underflow, halts and who touches what -/

/-- R15, R16: the operands each instruction needs, and with fewer it has no effect: nothing is consumed, nothing
pushed, nothing recorded, and the pointer advances by one. -/
def Obligations.UnderflowIsAllOrNothing : Prop :=
  (∀ i ∈ [Instr.load, .duplicate, .pop, .jump, .call], operandsNeeded i = 1) ∧
  (∀ i ∈ [Instr.write, .addInt, .subtractInt, .multiplyInt, .divideInt, .moduloInt, .addFloat, .subtractFloat,
      .multiplyFloat, .divideFloat, .moduloFloat], operandsNeeded i = 2) ∧
  (∀ i ∈ [Instr.loadConst0, .loadConst1, .ret, .panic], operandsNeeded i = 0) ∧
  ∀ i s, s.stack.length < operandsNeeded i → CompletesAndAdvances i s s

/-- R86: a fault writes `STATUS` and `CAUSE` and nothing else, a Panic and the end of the program `STATUS` alone. -/
def Obligations.HaltingChangesStatusAndCauseAlone : Prop :=
  ∀ s t : State, s.status = .run → step s = .next t →
    (t.status = .fault → t.cause ≠ .none ∧ t = { s with status := .fault, cause := t.cause }) ∧
    (t.status = .panic → t = { s with status := .panic }) ∧
    (t.status = .ended → t = { s with status := .ended })

/-- R85: the fatal conditions, complete: which instruction raises which, exactly when, and the values shown. A Panic
writes no `CAUSE`; that it shows `NONE` rests on `CAUSE` being `NONE` in a running core, which the invariant says. -/
def Obligations.FatalConditionsAreExactlyTheListedOnes : Prop :=
  (∀ s t : State, s.status = .run → step s = .next t →
    (t.status = .panic ↔ AtInstr s .panic) ∧
    (t.status = .fault ∧ t.cause = .divZero ↔
      (AtInstr s .divideInt ∨ AtInstr s .moduloInt) ∧ ∃ a rest, s.stack = 0#32 :: a :: rest) ∧
    (t.status = .fault ∧ t.cause = .memRange ↔
      (AtInstr s .load ∧ ∃ addr rest, s.stack = addr :: rest ∧ s.params.memSize < addr.toNat + 4) ∨
      (AtInstr s .write ∧ ∃ v addr rest, s.stack = v :: addr :: rest ∧ s.params.memSize < addr.toNat + 4)) ∧
    (t.status = .fault ∧ t.cause = .stackOverflow ↔
      (AtInstr s .loadConst0 ∨ AtInstr s .loadConst1) ∧ s.params.stackCap = some s.stack.length) ∧
    (t.status = .fault ∧ t.cause = .frameOverflow ↔
      AtInstr s .call ∧ 1 ≤ s.stack.length ∧ s.params.frameCap = some s.frames.length) ∧
    (t.status = .fault → t.cause ≠ .none ∧
      t.ip = s.ip ∧ t.stack = s.stack ∧ t.frames = s.frames ∧ t.mem = s.mem) ∧
    (t.status = .panic → t.cause = s.cause ∧ (s.Inv → t.cause = .none) ∧ t.ip = s.ip)) ∧
  Status.code .panic = 2#2 ∧ Status.code .fault = 3#2 ∧ Cause.code .none = 0#3 ∧ Cause.code .divZero = 1#3 ∧
  Cause.code .memRange = 2#3 ∧ Cause.code .stackOverflow = 3#3 ∧ Cause.code .frameOverflow = 4#3

/-- R88: the order of the checks: terminal, decode, missing input, the one fault condition, the effect. So an
instruction that lacks an input never faults, whatever its fault condition says. -/
def Obligations.ChecksAreMadeInTheirOrder : Prop :=
  ∀ s : State, s.status = .run →
    (s.prog.length ≤ s.ip.toNat → step s = .next { s with status := .ended }) ∧
    (AtNoInstruction s → step s = .next { s with ip := s.ip + 1#32 }) ∧
    ∀ i, AtInstr s i →
      (LacksItsInput i s → step s = .next { s with ip := s.ip + 1#32 }) ∧
      (¬ LacksItsInput i s → ∀ c, FaultCondition i s c → step s = .next { s with status := .fault, cause := c }) ∧
      (¬ LacksItsInput i s → (∀ c, ¬ FaultCondition i s c) →
        ∃ t, exec i s = .next t ∧ t.status ≠ .fault ∧ t.cause = s.cause)

/-- R84: the conditions that never stop the core: a Word that is no instruction, underflow and a Return without a
frame (no effect, the pointer advances); Duplicate below the bottom (pushes 0); a Jump, a Call with room for its
frame, or a Return to an index at or past `PROG_LEN` (the core runs on at that index with no `CAUSE` recorded, and its
next step ends the run normally); integer overflow; every float case. -/
def Obligations.TheListedConditionsNeverStopTheCore : Prop :=
  (∀ s, AtNoInstruction s → step s = .next { s with ip := s.ip + 1#32 }) ∧
  (∀ s i, AtInstr s i → LacksItsInput i s → step s = .next { s with ip := s.ip + 1#32 }) ∧
  (∀ s (n : Word) rest, AtInstr s .duplicate → s.stack = n :: rest → rest.length ≤ n.toNat →
    step s = .next { s with stack := 0#32 :: rest, ip := s.ip + 1#32 }) ∧
  (∀ s v rest, AtInstr s .jump ∨ (AtInstr s .call ∧ s.params.frameCap ≠ some s.frames.length) →
    s.stack = v :: rest → s.prog.length ≤ v.toNat →
    ∃ t, step s = .next t ∧ t.status = .run ∧ t.cause = s.cause ∧ t.ip = v ∧
      step t = .next { t with status := .ended }) ∧
  (∀ s f outer, AtInstr s .ret → s.frames = f :: outer → s.prog.length ≤ f.resume.toNat →
    ∃ t, step s = .next t ∧ t.status = .run ∧ t.cause = s.cause ∧ t.ip = f.resume ∧
      step t = .next { t with status := .ended }) ∧
  ∀ s i, AtInstr s i →
    i ∈ [Instr.addInt, .subtractInt, .multiplyInt, .addFloat, .subtractFloat, .multiplyFloat, .divideFloat,
      .moduloFloat] →
    ∃ t, step s = .next t ∧ t.status = .run ∧ t.cause = s.cause ∧ t.ip = s.ip + 1#32

/-- Only Write changes Memory and only Load reads it: every other instruction leaves it as it is and does the same
whatever it holds. Write reads none of it either: whatever Memory holds, Write does the same to everything else, and
of each byte it either leaves what was there, in both runs, or stores the same value in both. -/
def Obligations.OnlyWriteChangesMemoryAndOnlyLoadReadsIt : Prop :=
  (∀ i s t, exec i s = .next t → i ≠ .write → t.mem = s.mem) ∧
  (∀ i s t m, exec i s = .next t → i ≠ .load → i ≠ .write →
    exec i { s with mem := m } = .next { t with mem := m }) ∧
  ∀ s t m, exec .write s = .next t →
    ∃ m', exec .write { s with mem := m } = .next { t with mem := m' } ∧
      ∀ a, (m'.readByte a = m.readByte a ∧ t.mem.readByte a = s.mem.readByte a) ∨ m'.readByte a = t.mem.readByte a

/-- Each Call that takes effect pushes one frame, each Return pops one, and no other instruction reads or writes the
frame stack. -/
def Obligations.OnlyCallAndReturnTouchTheFrameStack : Prop :=
  (∀ i s t fs, exec i s = .next t → i ≠ .call → i ≠ .ret →
    t.frames = s.frames ∧ exec i { s with frames := fs } = .next { t with frames := fs }) ∧
  (∀ s t, exec .call s = .next t → t.frames = s.frames ∨ ∃ f, t.frames = f :: s.frames) ∧
  ∀ s t, exec .ret s = .next t → t.frames = s.frames.tail

/-- "No instruction reads `STATUS`" and "No instruction reads `CAUSE`": with other contents of the two registers an
instruction does the same to everything else, and of each of the two registers it either writes the same value or
leaves what was there, in both runs. -/
def Obligations.NoInstructionReadsStatusOrCause : Prop :=
  ∀ i s t st c, exec i s = .next t →
    ∃ u, exec i { s with status := st, cause := c } = .next u ∧
      { u with status := t.status, cause := t.cause } = t ∧
      (u.status = t.status ∨ (t.status = s.status ∧ u.status = st)) ∧
      (u.cause = t.cause ∨ (t.cause = s.cause ∧ u.cause = c))

/-- R17: only LoadConst0 and LoadConst1 make the stack deeper; a full stack makes them fault; an unbounded one is
never full; and no step takes the depth past `STACK_CAP`. -/
def Obligations.OnlyTheLiteralsCanOverflowTheStack : Prop :=
  (∀ i s t, exec i s = .next t → i ≠ .loadConst0 → i ≠ .loadConst1 → t.stack.length ≤ s.stack.length) ∧
  (∀ i s, i = .loadConst0 ∨ i = .loadConst1 → s.params.stackCap = some s.stack.length →
    CompletesInPlace i s { s with status := .fault, cause := .stackOverflow }) ∧
  (∀ i s, i = .loadConst0 ∨ i = .loadConst1 → s.params.stackCap = none →
    ∃ t, exec i s = .next t ∧ t.status = s.status ∧ t.stack.length = s.stack.length + 1) ∧
  ∀ s t : State, step s = .next t → Within s.stack.length s.params.stackCap →
    Within t.stack.length t.params.stackCap

/-- R20: a Call on a full frame stack faults, a Return on an empty one has no effect, and no step takes the frame
stack past `FRAME_CAP`. -/
def Obligations.TheFrameStackHoldsAtMostItsCapacity : Prop :=
  (∀ s v rest, s.stack = v :: rest → s.params.frameCap = some s.frames.length →
    CompletesInPlace .call s { s with status := .fault, cause := .frameOverflow }) ∧
  (∀ s, s.frames = [] → CompletesAndAdvances .ret s s) ∧
  ∀ s t : State, step s = .next t → Within s.frames.length s.params.frameCap →
    Within t.frames.length t.params.frameCap

/-! ### Memory instructions -/

/-- R48, R31: Load (Word 0). Without an operand no effect; with an address out of range `MEM_RANGE` and nothing
else; otherwise the little-endian Word at the address takes the address's place, at any alignment. -/
def Obligations.LoadReadsTheWordAtThePoppedAddress : Prop :=
  encode defaultOpMap .load = 0x00000000#32 ∧
  (∀ s, s.stack = [] → CompletesAndAdvances .load s s) ∧
  (∀ s addr rest, s.stack = addr :: rest → s.params.memSize < addr.toNat + 4 →
    CompletesInPlace .load s { s with status := .fault, cause := .memRange }) ∧
  ∀ s addr rest, s.stack = addr :: rest → addr.toNat + 4 ≤ s.params.memSize →
    ∃ v : Word,
      v.toNat = (s.mem.readByte addr.toNat).toNat + 2 ^ 8 * (s.mem.readByte (addr.toNat + 1)).toNat +
        2 ^ 16 * (s.mem.readByte (addr.toNat + 2)).toNat + 2 ^ 24 * (s.mem.readByte (addr.toNat + 3)).toNat ∧
      CompletesAndAdvances .load s { s with stack := v :: rest }

/-- R49, R32: Write (Word 1). With fewer than two operands no effect; with an address out of range `MEM_RANGE` and
nothing else; otherwise both operands are removed, byte `k` of the value is at `addr + k` for the four `k`, and
every other byte of Memory reads as before. -/
def Obligations.WriteStoresTheValueAtTheAddressBeneath : Prop :=
  encode defaultOpMap .write = 0x00000001#32 ∧
  (∀ s, s.stack.length < 2 → CompletesAndAdvances .write s s) ∧
  (∀ s addr v rest, s.stack = v :: addr :: rest → s.params.memSize < addr.toNat + 4 →
    CompletesInPlace .write s { s with status := .fault, cause := .memRange }) ∧
  ∀ s addr v rest, s.stack = v :: addr :: rest → addr.toNat + 4 ≤ s.params.memSize →
    ∃ m : Memory,
      CompletesAndAdvances .write s { s with stack := rest, mem := m } ∧
      (∀ k, k < 4 → (m.readByte (addr.toNat + k)).toNat = v.toNat / 2 ^ (8 * k) % 256) ∧
      ∀ a, a < addr.toNat ∨ addr.toNat + 4 ≤ a → m.readByte a = s.mem.readByte a

/-- Accesses happen in program order: after a Write, a Load at any address, overlapping or not, gives for each of
its four bytes the stored byte where the Write covered it and the byte of before where it did not. -/
def Obligations.LoadAfterWriteReadsTheStoredBytes : Prop :=
  ∀ s addr v rest, s.stack = v :: addr :: rest → addr.toNat + 4 ≤ s.params.memSize →
    ∃ t, exec .write s = .next t ∧
      ∀ (b : Word) (rest' : List Word), b.toNat + 4 ≤ s.params.memSize →
        ∃ x : Word, exec .load { t with stack := b :: rest' } = .next { t with stack := x :: rest' } ∧
          ∀ k, k < 4 → x.toNat / 2 ^ (8 * k) % 256 =
            if addr.toNat ≤ b.toNat + k ∧ b.toNat + k < addr.toNat + 4
            then v.toNat / 2 ^ (8 * (b.toNat + k - addr.toNat)) % 256
            else (s.mem.readByte (b.toNat + k)).toNat

/-! ### Stack instructions -/

/-- R50, R51: LoadConst0 (Word 2) and LoadConst1 (Word 3) push 0 and 1, or fault on a full stack. -/
def Obligations.LoadConstPushesItsLiteral : Prop :=
  encode defaultOpMap .loadConst0 = 0x00000002#32 ∧ encode defaultOpMap .loadConst1 = 0x00000003#32 ∧
  ∀ (i : Instr) (v : Word), (i = .loadConst0 ∧ v = 0#32) ∨ (i = .loadConst1 ∧ v = 1#32) →
    (∀ s, s.params.stackCap = some s.stack.length →
      CompletesInPlace i s { s with status := .fault, cause := .stackOverflow }) ∧
    ∀ s, s.params.stackCap ≠ some s.stack.length → CompletesAndAdvances i s { s with stack := v :: s.stack }

/-- R52 (D6): Duplicate (Word 4) pops `n` and pushes `S'[d'-1-n]`, with `S'` the stack after the pop, bottom first,
and `d'` its depth; 0 when that entry does not exist. Nothing else changes. -/
def Obligations.DuplicatePushesTheEntryNBelowTheNewTop : Prop :=
  encode defaultOpMap .duplicate = 0x00000004#32 ∧
  (∀ s, s.stack = [] → CompletesAndAdvances .duplicate s s) ∧
  ∀ s (n : Word) rest, s.stack = n :: rest →
    ∃ v : Word,
      (n.toNat < rest.length → rest.reverse[rest.length - 1 - n.toNat]? = some v) ∧
      (rest.length ≤ n.toNat → v = 0#32) ∧
      CompletesAndAdvances .duplicate s { s with stack := v :: rest }

/-- R53: Pop (Word 5) discards the top; on an empty stack it has no effect. -/
def Obligations.PopDiscardsTheTop : Prop :=
  encode defaultOpMap .pop = 0x00000005#32 ∧
  (∀ s, s.stack = [] → CompletesAndAdvances .pop s s) ∧
  ∀ s v rest, s.stack = v :: rest → CompletesAndAdvances .pop s { s with stack := rest }

/-! ### Control transfer -/

/-- R54: Jump (Word 6) pops the target and writes it to the pointer; a target past the program ends the run
normally at the next step. -/
def Obligations.JumpSetsThePointerToThePoppedTarget : Prop :=
  encode defaultOpMap .jump = 0x00000006#32 ∧
  (∀ s, s.stack = [] → CompletesAndAdvances .jump s s) ∧
  (∀ s v rest, s.stack = v :: rest → CompletesAndTransfers .jump s { s with stack := rest, ip := v }) ∧
  ∀ s v rest, s.stack = v :: rest → AtInstr s .jump → s.prog.length ≤ v.toNat →
    ∃ t, step s = .next t ∧ t.ip = v ∧ t.status = .run ∧ step t = .next { t with status := .ended }

/-- R55 (D4, D19): Call (Word 7). No effect on an empty stack, even with the frame stack full; `FRAME_OVERFLOW` on a
full frame stack; otherwise the target is popped, the frame (depth after the pop, next index) is pushed and the
pointer is the target; a target past the program ends the run at the next step. The bound is that depth whenever its
field has the width for it (R18); with an unbounded stack it is 32 bits, and of a depth of `2^32` or more nothing else
is said (log entry 7). -/
def Obligations.CallPushesAFrameAndTransfers : Prop :=
  encode defaultOpMap .call = 0x00000007#32 ∧
  (∀ s, s.stack = [] → CompletesAndAdvances .call s s) ∧
  (∀ s v rest, s.stack = v :: rest → s.params.frameCap = some s.frames.length →
    CompletesInPlace .call s { s with status := .fault, cause := .frameOverflow }) ∧
  (∀ s v rest, s.stack = v :: rest → s.params.frameCap ≠ some s.frames.length →
    ∃ b, (FitsBoundWidth s.params (s.stack.length - 1) → b = s.stack.length - 1) ∧ FitsBoundWidth s.params b ∧
      CompletesAndTransfers .call s { s with
        stack := rest
        frames := { bound := b, resume := s.ip + 1#32 } :: s.frames
        ip := v }) ∧
  ∀ s v rest, s.stack = v :: rest → s.params.frameCap ≠ some s.frames.length → AtInstr s .call →
    s.prog.length ≤ v.toNat →
    ∃ t, step s = .next t ∧ t.ip = v ∧ t.status = .run ∧ step t = .next { t with status := .ended }

/-- R56 (D12, D20): Return (Word 8). No effect without a frame; otherwise the innermost frame is removed, the stack
is cut to `S[0 .. bound-1]`, bottom first, and never lengthened, and the pointer is the resume point. -/
def Obligations.ReturnTruncatesToTheBoundAndResumes : Prop :=
  encode defaultOpMap .ret = 0x00000008#32 ∧
  (∀ s, s.frames = [] → CompletesAndAdvances .ret s s) ∧
  ∀ s f outer, s.frames = f :: outer →
    ∃ kept : List Word,
      (f.bound < s.stack.length → kept.reverse = s.stack.reverse.take f.bound) ∧
      (s.stack.length ≤ f.bound → kept = s.stack) ∧
      CompletesAndTransfers .ret s { s with stack := kept, frames := outer, ip := f.resume }

/-- What survives a Return, whatever a callee did: of the entries of the stack, counted from the bottom, those below
the frame's bound are as they were, and none is left at or above it. -/
def Obligations.EntriesBelowTheBoundSurviveReturn : Prop :=
  ∀ s t f outer, s.frames = f :: outer → exec .ret s = .next t →
    (∀ k, k < f.bound → t.stack.reverse[k]? = s.stack.reverse[k]?) ∧
    (∀ k, f.bound ≤ k → t.stack.reverse[k]? = none) ∧
    t.stack.length ≤ s.stack.length

/-- R57: Panic (Word 9) writes `STATUS <- PANIC` and nothing else, whatever the state, and no step follows. -/
def Obligations.PanicHaltsWithNoOtherChange : Prop :=
  encode defaultOpMap .panic = 0x00000009#32 ∧
  ∀ s, CompletesInPlace .panic s { s with status := .panic } ∧
    step { s with status := .panic } = .next { s with status := .panic }

/-- The source's Call and Return property (test vector S9): a Call whose target is a Return restores the stack to
what lay beneath the target, closes its frame, and resumes after the Call (one index later when the Return stands
there itself). Where that is `2^32` entries or more on an unbounded stack, which a frame's bound has no width for (R18,
log entry 7), it restores some number of the bottom ones. -/
def Obligations.CallThenReturnRestoresTheStack : Prop :=
  ∀ s v rest w, AtInstr s .call → s.stack = v :: rest → s.params.frameCap ≠ some s.frames.length →
    s.prog[v.toNat]? = some w → decode s.params.opmap w = some .ret →
    ∃ (u : State) (kept : List Word), step s = .next u ∧
      (FitsBoundWidth s.params rest.length → kept = rest) ∧ (∃ b, kept.reverse = rest.reverse.take b) ∧
      step u = .next { s with
        stack := kept
        ip := if v = s.ip + 1#32 then s.ip + 2#32 else s.ip + 1#32 }

/-! ### Integer arithmetic -/

/-- R60, R61, R62: AddInt, SubtractInt and MultiplyInt (Words 10 to 12) replace `a` and `b` by the sum, difference
and product modulo `2^32`; with fewer than two entries they have no effect. -/
def Obligations.AddSubtractMultiplyWrapModuloTwoToTheThirtyTwo : Prop :=
  encode defaultOpMap .addInt = 0x0000000A#32 ∧ encode defaultOpMap .subtractInt = 0x0000000B#32 ∧
  encode defaultOpMap .multiplyInt = 0x0000000C#32 ∧
  (∀ i s, i = .addInt ∨ i = .subtractInt ∨ i = .multiplyInt → s.stack.length < 2 → CompletesAndAdvances i s s) ∧
  ∀ s (a b : Word) rest, s.stack = b :: a :: rest →
    (∃ r : Word, r.toNat = (a.toNat + b.toNat) % 2 ^ 32 ∧
      CompletesAndAdvances .addInt s { s with stack := r :: rest }) ∧
    (∃ r : Word, (r.toNat : Int) = ((a.toNat : Int) - b.toNat) % 2 ^ 32 ∧
      CompletesAndAdvances .subtractInt s { s with stack := r :: rest }) ∧
    ∃ r : Word, r.toNat = a.toNat * b.toNat % 2 ^ 32 ∧
      CompletesAndAdvances .multiplyInt s { s with stack := r :: rest }

/-- R63, R64: DivideInt and ModuloInt (Words 13 and 14) replace `a` and `b` by the unsigned quotient and remainder;
a zero divisor is `DIV_ZERO` with the operands left; with fewer than two entries they have no effect, whatever the
entry. The two results satisfy `(a div b) * b + (a mod b) = a`. -/
def Obligations.DivideAndModuloAreUnsignedAndFaultOnZero : Prop :=
  encode defaultOpMap .divideInt = 0x0000000D#32 ∧ encode defaultOpMap .moduloInt = 0x0000000E#32 ∧
  (∀ i s, i = .divideInt ∨ i = .moduloInt → s.stack.length < 2 → CompletesAndAdvances i s s) ∧
  (∀ i s a rest, i = .divideInt ∨ i = .moduloInt → s.stack = 0#32 :: a :: rest →
    CompletesInPlace i s { s with status := .fault, cause := .divZero }) ∧
  ∀ s (a b : Word) rest, s.stack = b :: a :: rest → b ≠ 0#32 →
    ∃ q r : Word, q.toNat = a.toNat / b.toNat ∧ r.toNat = a.toNat % b.toNat ∧
      q.toNat * b.toNat + r.toNat = a.toNat ∧ r.toNat < b.toNat ∧
      CompletesAndAdvances .divideInt s { s with stack := q :: rest } ∧
      CompletesAndAdvances .moduloInt s { s with stack := r :: rest }

/-! ### Float arithmetic. What these say past the quoted words of the source is the spec's general knowledge of
IEEE-754 (its decision D16); log entries 6, 13 and 14 say what the model adds. -/

/-- The five float instructions (Words 15 to 19) replace `a` and `b` by the value of their function on the two Words
and never fault; with fewer than two entries they have no effect. -/
def Obligations.FloatInstructionsReplaceTheirOperands : Prop :=
  encode defaultOpMap .addFloat = 0x0000000F#32 ∧ encode defaultOpMap .subtractFloat = 0x00000010#32 ∧
  encode defaultOpMap .multiplyFloat = 0x00000011#32 ∧ encode defaultOpMap .divideFloat = 0x00000012#32 ∧
  encode defaultOpMap .moduloFloat = 0x00000013#32 ∧
  ∀ i op, (i, op) ∈ [(Instr.addFloat, fadd), (.subtractFloat, fsub), (.multiplyFloat, fmul), (.divideFloat, fdiv),
      (.moduloFloat, frem)] →
    (∀ s, s.stack.length < 2 → CompletesAndAdvances i s s) ∧
    ∀ s a b rest, s.stack = b :: a :: rest → CompletesAndAdvances i s { s with stack := op a b :: rest }

/-- The sum and the difference of two finite numbers are the exact result rounded once to nearest even; an exact
zero is `+0`, but `-0` for `(-0) + (-0)` and `(-0) - (+0)`. -/
def Obligations.FloatSumAndDifferenceAreCorrectlyRounded : Prop :=
  ∀ a b : Word, IsFinite a → IsFinite b →
    (f32 a + f32 b ≠ 0 → RoundsToNearestEven (f32 a + f32 b) (fadd a b)) ∧
    (f32 a + f32 b = 0 → fadd a b = zeroWord (isNegative a && isNegative b)) ∧
    (f32 a - f32 b ≠ 0 → RoundsToNearestEven (f32 a - f32 b) (fsub a b)) ∧
    (f32 a - f32 b = 0 → fsub a b = zeroWord (isNegative a && !isNegative b))

/-- The product of two finite numbers, and the quotient by a finite non-zero one, are the exact result rounded once
to nearest even; a zero has the exclusive-or of the operand signs. -/
def Obligations.FloatProductAndQuotientAreCorrectlyRounded : Prop :=
  ∀ a b : Word, IsFinite a → IsFinite b →
    (f32 a * f32 b ≠ 0 → RoundsToNearestEven (f32 a * f32 b) (fmul a b)) ∧
    (f32 a * f32 b = 0 → fmul a b = zeroWord (isNegative a ^^ isNegative b)) ∧
    (f32 a ≠ 0 → f32 b ≠ 0 → RoundsToNearestEven (f32 a / f32 b) (fdiv a b)) ∧
    (f32 a = 0 → f32 b ≠ 0 → fdiv a b = zeroWord (isNegative a ^^ isNegative b))

/-- The results with an infinity among the operands, and of a division by zero, that are not NaNs. -/
def Obligations.FloatInfinityResults : Prop :=
  ∀ a b : Word,
    (IsInfinite a → IsFinite b → fadd a b = a ∧ fsub a b = a) ∧
    (IsFinite a → IsInfinite b → fadd a b = b ∧ fsub a b = infinityWord (!isNegative b)) ∧
    (IsInfinite a → IsInfinite b → isNegative a = isNegative b → fadd a b = a) ∧
    (IsInfinite a → IsInfinite b → isNegative a ≠ isNegative b → fsub a b = a) ∧
    ((IsInfinite a ∧ ¬ IsNaN b ∧ ¬ IsZero b) ∨ (IsInfinite b ∧ ¬ IsNaN a ∧ ¬ IsZero a) →
      fmul a b = infinityWord (isNegative a ^^ isNegative b)) ∧
    (IsInfinite a → IsFinite b → fdiv a b = infinityWord (isNegative a ^^ isNegative b)) ∧
    (IsFinite a → IsInfinite b → fdiv a b = zeroWord (isNegative a ^^ isNegative b)) ∧
    (IsFinite a → ¬ IsZero a → IsZero b → fdiv a b = infinityWord (isNegative a ^^ isNegative b))

/-- A result is a NaN exactly in the listed cases, for the five functions; which NaN is free (log entry 6). -/
def Obligations.FloatResultIsNaNExactlyWhenListed : Prop :=
  ∀ a b : Word,
    (IsNaN (fadd a b) ↔
      IsNaN a ∨ IsNaN b ∨ (IsInfinite a ∧ IsInfinite b ∧ isNegative a ≠ isNegative b)) ∧
    (IsNaN (fsub a b) ↔
      IsNaN a ∨ IsNaN b ∨ (IsInfinite a ∧ IsInfinite b ∧ isNegative a = isNegative b)) ∧
    (IsNaN (fmul a b) ↔
      IsNaN a ∨ IsNaN b ∨ (IsZero a ∧ IsInfinite b) ∨ (IsInfinite a ∧ IsZero b)) ∧
    (IsNaN (fdiv a b) ↔
      IsNaN a ∨ IsNaN b ∨ (IsZero a ∧ IsZero b) ∨ (IsInfinite a ∧ IsInfinite b)) ∧
    (IsNaN (frem a b) ↔ IsNaN a ∨ IsNaN b ∨ IsInfinite a ∨ IsZero b)

/-- The float remainder: exact, of truncated division, below the divisor in magnitude, with the sign of the
dividend, zeros included; a dividend that is a zero, or finite with an infinite divisor, is the result
unchanged. -/
def Obligations.FloatRemainderIsExactTruncatedDivision : Prop :=
  ∀ a b : Word, IsFinite a →
    (IsFinite b → f32 b ≠ 0 →
      IsFinite (frem a b) ∧
      f32 (frem a b) = f32 a - f32 b * (truncated (f32 a / f32 b) : ℚ) ∧
      |f32 (frem a b)| < |f32 b| ∧
      isNegative (frem a b) = isNegative a) ∧
    (IsInfinite b → frem a b = a) ∧
    (IsZero a → ¬ IsNaN b → ¬ IsZero b → frem a b = a)

/-- `fsub(a, b)` equals `fadd(a, b with bit 31 inverted)` whenever the result is not a NaN. -/
def Obligations.FloatDifferenceIsTheSumWithTheSignInverted : Prop :=
  ∀ a b : Word, ¬ IsNaN (fsub a b) → fsub a b = fadd a (b ^^^ 0x80000000#32)

/-! ### The outputs -/

/-- R83: `result` is `S[depth-1]`, bottom first, when `depth > 0`, and 0 when `depth = 0`. -/
def Obligations.ResultIsTheTopOfTheStackOrZero : Prop :=
  ∀ s : State,
    (0 < s.depth → s.stack.reverse[s.depth - 1]? = some s.result) ∧ (s.depth = 0 → s.result = 0#32)

/-- The numbers the outputs `status` and `cause` show: RUN 0, END 1, PANIC 2, FAULT 3; NONE 0, DIV_ZERO 1,
MEM_RANGE 2, STACK_OVERFLOW 3, FRAME_OVERFLOW 4. A core that does not show FAULT shows cause 0, in every state that
meets the invariant. -/
def Obligations.StatusAndCauseShowTheirNumbers : Prop :=
  Status.code .run = 0#2 ∧ Status.code .ended = 1#2 ∧ Status.code .panic = 2#2 ∧ Status.code .fault = 3#2 ∧
  Cause.code .none = 0#3 ∧ Cause.code .divZero = 1#3 ∧ Cause.code .memRange = 2#3 ∧
  Cause.code .stackOverflow = 3#3 ∧ Cause.code .frameOverflow = 4#3 ∧
  ∀ s : State, s.Inv → (s.statusPort ≠ 3#2 ↔ s.causePort = 0#3)
end

