-- ==== Sys2Proof/Laws/Decode.lean ====
section
/-! SUPPORT. The small facts of the decoder. -/

namespace Sys2Proof

theorem Instr.mem_all (i : Instr) : i ∈ Instr.all := by
  cases i <;> decide

/-- A Word that decodes is the Word of the instruction it decodes to. -/
theorem word_of_decode {m : OpMap} {w : Word} {i : Instr} (h : decode m w = some i) : m.word i = w := by
  simpa using List.find?_some h

theorem default_wellFormed : defaultOpMap.wellFormed = true := by decide

end Sys2Proof
end

