-- ==== Sys2Proof/Laws/Operands.lean ====
section
/-! SUPPORT. Each shared operation once: what it answers, case by case, for citing in place of unfolding. -/

namespace Sys2Proof.Machine

section OperandForms
variable {s t : State}

/-- `k = 1`: no effect on an empty stack, the effect on any other. -/
theorem withTop_next {effect : Word → List Word → State} (h : withTop s effect = .next t) :
    (s.stack = [] ∧ t = s) ∨ ∃ v rest, s.stack = v :: rest ∧ t = effect v rest := by
  unfold withTop at h
  split at h
  · rename_i v rest hs; cases h; exact .inr ⟨v, rest, hs, rfl⟩
  · rename_i hs; cases h; exact .inl ⟨hs, rfl⟩

/-- `k = 2`: no effect with fewer than two entries, the effect otherwise. -/
theorem withTopTwo_next {effect : Word → Word → List Word → State} (h : withTopTwo s effect = .next t) :
    (s.stack.length < 2 ∧ t = s) ∨ ∃ a b rest, s.stack = b :: a :: rest ∧ t = effect a b rest := by
  unfold withTopTwo at h
  split at h
  · rename_i b a rest hs; cases h; exact .inr ⟨a, b, rest, hs, rfl⟩
  · rename_i v hs; cases h; exact .inl ⟨by simp [hs], rfl⟩
  · rename_i hs; cases h; exact .inl ⟨by simp [hs], rfl⟩

theorem withTop_of_empty {effect : Word → List Word → State} (h : s.stack = []) : withTop s effect = .next s := by
  simp [withTop, h]

theorem withTop_of_cons {effect : Word → List Word → State} {v : Word} {rest : List Word}
    (h : s.stack = v :: rest) : withTop s effect = .next (effect v rest) := by
  simp [withTop, h]

theorem withTopTwo_of_short {effect : Word → Word → List Word → State} (h : s.stack.length < 2) :
    withTopTwo s effect = .next s := by
  unfold withTopTwo
  split
  · rename_i b a rest hs; simp [hs] at h
  · rfl
  · rfl

theorem withTopTwo_of_cons {effect : Word → Word → List Word → State} {a b : Word} {rest : List Word}
    (h : s.stack = b :: a :: rest) : withTopTwo s effect = .next (effect a b rest) := by
  simp [withTopTwo, h]

/-- A two-operand instruction replaces its operands by its result, or has no effect. -/
theorem replaceTwo_next {op : Word → Word → Word} (h : replaceTwo s op = .next t) :
    (s.stack.length < 2 ∧ t = s) ∨
      ∃ a b rest, s.stack = b :: a :: rest ∧ t = { s with stack := op a b :: rest } :=
  withTopTwo_next h

/-- As `replaceTwo_next`, with the fault on a zero divisor. -/
theorem replaceTwoNonzero_next {op : Word → Word → Word} (h : replaceTwoNonzero s op = .next t) :
    (s.stack.length < 2 ∧ t = s) ∨
      (∃ a rest, s.stack = 0#32 :: a :: rest ∧ t = raiseFault .divZero s) ∨
        ∃ a b rest, s.stack = b :: a :: rest ∧ b ≠ 0#32 ∧ t = { s with stack := op a b :: rest } := by
  rcases withTopTwo_next h with h | ⟨a, b, rest, hs, ht⟩
  · exact .inl h
  · by_cases hb : b = 0#32
    · exact .inr (.inl ⟨a, rest, hb ▸ hs, by simpa [hb] using ht⟩)
    · exact .inr (.inr ⟨a, b, rest, hs, hb, by simpa [hb] using ht⟩)

/-- A literal is pushed, or the stack is full. -/
theorem pushLiteral_next {v : Word} (h : pushLiteral s v = .next t) :
    (s.params.stackCap = some s.stack.length ∧ t = raiseFault .stackOverflow s) ∨
      (s.params.stackCap ≠ some s.stack.length ∧ t = { s with stack := v :: s.stack }) := by
  unfold pushLiteral at h
  split at h
  · rename_i hc; cases h
    exact .inl ⟨by simpa [atCapacity, State.depth] using hc, rfl⟩
  · rename_i hc; cases h
    exact .inr ⟨by simpa [atCapacity, State.depth] using hc, rfl⟩

end OperandForms

@[simp] theorem atCapacity_iff {cap : Option Nat} {n : Nat} : atCapacity cap n = true ↔ cap = some n := by
  simp [atCapacity]

@[simp] theorem inMemory_iff {p : Params} {addr : Word} : inMemory p addr = true ↔ addr.toNat + 4 ≤ p.memSize := by
  simp [inMemory]

/-- R18: the bound of a frame holds every depth that its field is wide enough for. -/
theorem recordedBound_of_fits {p : Params} {n : Nat} (h : p.stackCap = none → n < 2 ^ 32) :
    recordedBound p n = n := by
  unfold recordedBound
  split
  · rfl
  · rename_i hc; rw [if_pos (h hc)]

/-- R18: with an unbounded stack what the bound holds is 32 bits wide, whatever the depth. -/
theorem recordedBound_lt {p : Params} (n : Nat) (h : p.stackCap = none) : recordedBound p n < 2 ^ 32 := by
  unfold recordedBound
  rw [h]
  dsimp only
  split
  · assumption
  · exact (Config.overwideBound n).isLt

/-- R18: the bound of a frame is never greater than the depth it was opened at. -/
theorem recordedBound_le (p : Params) (n : Nat) : recordedBound p n ≤ n := by
  unfold recordedBound
  split
  · exact le_rfl
  · split
    · exact le_rfl
    · have := (Config.overwideBound n).isLt; omega

/-- R19, R56: a truncation keeps the entries nearest the bottom and never lengthens. -/
theorem truncate_length (bound : Nat) (stack : List Word) :
    (truncate bound stack).length = min bound stack.length := by
  simp only [truncate, List.length_drop]; omega

theorem truncate_reverse (bound : Nat) (stack : List Word) :
    (truncate bound stack).reverse = stack.reverse.take bound := by
  rw [truncate, List.take_reverse]

end Sys2Proof.Machine
end

