-- ==== Sys2Proof/Laws/State.lean ====
section
/-! SUPPORT. What the named updates of the state do to each of its fields. -/

namespace Sys2Proof.Machine

section OfRaiseFault
variable (c : Cause) (s : State)
@[simp] theorem raiseFault_params : (raiseFault c s).params = s.params := rfl
@[simp] theorem raiseFault_prog : (raiseFault c s).prog = s.prog := rfl
@[simp] theorem raiseFault_ip : (raiseFault c s).ip = s.ip := rfl
@[simp] theorem raiseFault_stack : (raiseFault c s).stack = s.stack := rfl
@[simp] theorem raiseFault_frames : (raiseFault c s).frames = s.frames := rfl
@[simp] theorem raiseFault_mem : (raiseFault c s).mem = s.mem := rfl
@[simp] theorem raiseFault_status : (raiseFault c s).status = .fault := rfl
@[simp] theorem raiseFault_cause : (raiseFault c s).cause = c := rfl
end OfRaiseFault

section OfEnterPanic
variable (s : State)
@[simp] theorem enterPanic_params : (enterPanic s).params = s.params := rfl
@[simp] theorem enterPanic_prog : (enterPanic s).prog = s.prog := rfl
@[simp] theorem enterPanic_ip : (enterPanic s).ip = s.ip := rfl
@[simp] theorem enterPanic_stack : (enterPanic s).stack = s.stack := rfl
@[simp] theorem enterPanic_frames : (enterPanic s).frames = s.frames := rfl
@[simp] theorem enterPanic_mem : (enterPanic s).mem = s.mem := rfl
@[simp] theorem enterPanic_status : (enterPanic s).status = .panic := rfl
@[simp] theorem enterPanic_cause : (enterPanic s).cause = s.cause := rfl
end OfEnterPanic

section OfEnterEnd
variable (s : State)
@[simp] theorem enterEnd_params : (enterEnd s).params = s.params := rfl
@[simp] theorem enterEnd_prog : (enterEnd s).prog = s.prog := rfl
@[simp] theorem enterEnd_ip : (enterEnd s).ip = s.ip := rfl
@[simp] theorem enterEnd_stack : (enterEnd s).stack = s.stack := rfl
@[simp] theorem enterEnd_frames : (enterEnd s).frames = s.frames := rfl
@[simp] theorem enterEnd_mem : (enterEnd s).mem = s.mem := rfl
@[simp] theorem enterEnd_status : (enterEnd s).status = .ended := rfl
@[simp] theorem enterEnd_cause : (enterEnd s).cause = s.cause := rfl
end OfEnterEnd

section OfResetWith
variable (p : Params) (prog : List Word)
@[simp] theorem resetWith_params : (State.resetWith p prog).params = p := rfl
@[simp] theorem resetWith_prog : (State.resetWith p prog).prog = prog := rfl
@[simp] theorem resetWith_ip : (State.resetWith p prog).ip = 0#32 := rfl
@[simp] theorem resetWith_stack : (State.resetWith p prog).stack = [] := rfl
@[simp] theorem resetWith_frames : (State.resetWith p prog).frames = [] := rfl
@[simp] theorem resetWith_mem : (State.resetWith p prog).mem = [] := rfl
@[simp] theorem resetWith_status : (State.resetWith p prog).status = .run := rfl
@[simp] theorem resetWith_cause : (State.resetWith p prog).cause = .none := rfl
end OfResetWith

section OfAdvance
variable (i : Word) (s : State)

/-- The advance changes the pointer alone. -/
theorem advance_eq : advance i s = { s with ip := (advance i s).ip } := by
  unfold advance; split <;> rfl

@[simp] theorem advance_params : (advance i s).params = s.params := by rw [advance_eq]
@[simp] theorem advance_prog : (advance i s).prog = s.prog := by rw [advance_eq]
@[simp] theorem advance_stack : (advance i s).stack = s.stack := by rw [advance_eq]
@[simp] theorem advance_frames : (advance i s).frames = s.frames := by rw [advance_eq]
@[simp] theorem advance_mem : (advance i s).mem = s.mem := by rw [advance_eq]
@[simp] theorem advance_status : (advance i s).status = s.status := by rw [advance_eq]
@[simp] theorem advance_cause : (advance i s).cause = s.cause := by rw [advance_eq]

/-- R77: the one field it changes, and when. -/
theorem advance_ip :
    (advance i s).ip = if s.status = .run ∧ s.ip = i then s.ip + 1#32 else s.ip := by
  unfold advance; split <;> rfl

/-- R77: a core that has halted is not advanced. -/
theorem advance_of_halted (h : s.status ≠ .run) : advance i s = s := by
  simp [advance, h]

/-- R77: a core that runs and whose pointer is unchanged advances by one. -/
theorem advance_of_unmoved (h : s.status = .run) : advance s.ip s = { s with ip := s.ip + 1#32 } := by
  simp [advance, h]

/-- R77: a pointer that the instruction changed is left as it is. -/
theorem advance_of_moved (h : s.ip ≠ i) : advance i s = s := by
  simp [advance, h]
end OfAdvance

section OfWithFetchWord
variable (s : State) (nbits w : Nat)
@[simp] theorem withFetchWord_params : (s.withFetchWord nbits w).params = s.params := rfl
@[simp] theorem withFetchWord_ip : (s.withFetchWord nbits w).ip = s.ip := rfl
@[simp] theorem withFetchWord_stack : (s.withFetchWord nbits w).stack = s.stack := rfl
@[simp] theorem withFetchWord_frames : (s.withFetchWord nbits w).frames = s.frames := rfl
@[simp] theorem withFetchWord_mem : (s.withFetchWord nbits w).mem = s.mem := rfl
@[simp] theorem withFetchWord_status : (s.withFetchWord nbits w).status = .run := rfl
@[simp] theorem withFetchWord_cause : (s.withFetchWord nbits w).cause = s.cause := rfl

/-- The placed word is the one the next fetch reads. -/
theorem withFetchWord_fetch :
    fetch (s.withFetchWord nbits w) = some (BitVec.ofNat 32 (w % 2 ^ nbits)) := by
  simp only [fetch, State.withFetchWord, placeWord]
  split
  · simp [*]
  · rename_i h
    rw [List.getElem?_append_right (by omega), List.getElem?_append_right (by simp)]
    simp
end OfWithFetchWord

end Sys2Proof.Machine
end

