-- ==== Sys2Proof/Laws/Exec.lean ====
section
/-! SUPPORT. What each meaning can do, said once: if `exec` answers a next state, it is one of these. -/

namespace Sys2Proof.Machine

section Meanings
variable {s t : State}

theorem execLoad_next (h : execLoad s = .next t) :
    (s.stack = [] ∧ t = s) ∨ ∃ addr rest, s.stack = addr :: rest ∧
      ((s.params.memSize < addr.toNat + 4 ∧ t = raiseFault .memRange s) ∨
       (addr.toNat + 4 ≤ s.params.memSize ∧ t = { s with stack := s.mem.readWord addr.toNat :: rest })) := by
  rcases withTop_next h with h | ⟨addr, rest, hs, ht⟩
  · exact .inl h
  · refine .inr ⟨addr, rest, hs, ?_⟩
    by_cases hm : addr.toNat + 4 ≤ s.params.memSize
    · exact .inr ⟨hm, by simpa [hm] using ht⟩
    · exact .inl ⟨by omega, by simpa [hm] using ht⟩

theorem execWrite_next (h : execWrite s = .next t) :
    (s.stack.length < 2 ∧ t = s) ∨ ∃ addr v rest, s.stack = v :: addr :: rest ∧
      ((s.params.memSize < addr.toNat + 4 ∧ t = raiseFault .memRange s) ∨
       (addr.toNat + 4 ≤ s.params.memSize ∧
         t = { s with stack := rest, mem := s.mem.writeWord addr.toNat v })) := by
  rcases withTopTwo_next h with h | ⟨addr, v, rest, hs, ht⟩
  · exact .inl h
  · refine .inr ⟨addr, v, rest, hs, ?_⟩
    by_cases hm : addr.toNat + 4 ≤ s.params.memSize
    · exact .inr ⟨hm, by simpa [hm] using ht⟩
    · exact .inl ⟨by omega, by simpa [hm] using ht⟩

theorem execDuplicate_next (h : execDuplicate s = .next t) :
    (s.stack = [] ∧ t = s) ∨
      ∃ n rest, s.stack = n :: rest ∧ t = { s with stack := entryBelowTop rest n :: rest } :=
  withTop_next h

theorem execPop_next (h : execPop s = .next t) :
    (s.stack = [] ∧ t = s) ∨ ∃ v rest, s.stack = v :: rest ∧ t = { s with stack := rest } :=
  withTop_next h

theorem execJump_next (h : execJump s = .next t) :
    (s.stack = [] ∧ t = s) ∨ ∃ v rest, s.stack = v :: rest ∧ t = { s with stack := rest, ip := v } :=
  withTop_next h

theorem execCall_next (h : execCall s = .next t) :
    (s.stack = [] ∧ t = s) ∨ ∃ v rest, s.stack = v :: rest ∧
      ((s.params.frameCap = some s.frames.length ∧ t = raiseFault .frameOverflow s) ∨
       (s.params.frameCap ≠ some s.frames.length ∧
         t = { s with
               stack := rest
               frames := { bound := recordedBound s.params rest.length, resume := s.ip + 1#32 } :: s.frames
               ip := v })) := by
  rcases withTop_next h with h | ⟨v, rest, hs, ht⟩
  · exact .inl h
  · refine .inr ⟨v, rest, hs, ?_⟩
    by_cases hc : s.params.frameCap = some s.frames.length
    · exact .inl ⟨hc, by simpa [hc, atCapacity] using ht⟩
    · exact .inr ⟨hc, by simpa [hc, atCapacity] using ht⟩

theorem execReturn_next (h : execReturn s = .next t) :
    (s.frames = [] ∧ t = s) ∨ ∃ f outer, s.frames = f :: outer ∧
      t = { s with stack := truncate f.bound s.stack, frames := outer, ip := f.resume } := by
  unfold execReturn at h
  split at h
  · rename_i hf; cases h; exact .inl ⟨hf, rfl⟩
  · rename_i f outer hf; cases h; exact .inr ⟨f, outer, hf, rfl⟩

end Meanings

end Sys2Proof.Machine
end

