-- ==== Sys2Proof/Laws/Float.lean ====
section
/-! SUPPORT. The fields of a pattern, and what the one rounding step answers. -/

namespace Sys2Proof.Machine

theorem signedPattern_toNat {negative : Bool} {m : Nat} (h : m < 2 ^ 31) :
    (signedPattern negative m).toNat = (if negative then 2 ^ 31 else 0) + m := by
  unfold signedPattern
  rw [BitVec.toNat_ofNat]
  split <;> omega

/-- The sign bit of a pattern is its sign. -/
theorem floatSign_signedPattern {negative : Bool} {m : Nat} (h : m < 2 ^ 31) :
    floatSign (signedPattern negative m) = negative := by
  rw [floatSign, signedPattern_toNat h]
  cases negative
  · simpa using h
  · simp

theorem floatExponent_signedPattern {negative : Bool} {m : Nat} (h : m < 2 ^ 31) :
    floatExponent (signedPattern negative m) = m / 2 ^ 23 := by
  rw [floatExponent, signedPattern_toNat h]
  split <;> omega

theorem floatFraction_signedPattern {negative : Bool} {m : Nat} (h : m < 2 ^ 31) :
    floatFraction (signedPattern negative m) = m % 2 ^ 23 := by
  rw [floatFraction, signedPattern_toNat h]
  split <;> omega

/-- A Word is made of its three fields. -/
theorem word_of_fields (w : Word) :
    w.toNat = (if floatSign w then 2 ^ 31 else 0) + floatExponent w * 2 ^ 23 + floatFraction w := by
  have h := w.isLt
  simp only [floatSign, floatExponent, floatFraction, decide_eq_true_eq]
  split <;> omega

/-- R67: a NaN result has an exponent of all ones and a non-zero fraction, whatever the free draw. -/
theorem nanPattern_fields (negative : Bool) (payload : Fin 8388607) :
    floatExponent (nanPattern negative payload) = 255 ∧ floatFraction (nanPattern negative payload) ≠ 0 := by
  have h := payload.isLt
  have hm : infinityPattern + (payload.val + 1) < 2 ^ 31 := by unfold infinityPattern; omega
  unfold nanPattern
  rw [floatExponent_signedPattern hm, floatFraction_signedPattern hm]
  unfold infinityPattern
  omega

/-- Every NaN Word is a draw: nothing is left out of the free choice. -/
theorem nanPattern_surjective (w : Word) (he : floatExponent w = 255) (hf : floatFraction w ≠ 0) :
    ∃ negative payload, nanPattern negative payload = w := by
  have hlt : floatFraction w < 2 ^ 23 := Nat.mod_lt _ (by decide)
  refine ⟨floatSign w, ⟨floatFraction w - 1, by omega⟩, BitVec.eq_of_toNat_eq ?_⟩
  have hw := word_of_fields w
  have hm : infinityPattern + (floatFraction w - 1 + 1) < 2 ^ 31 := by unfold infinityPattern; omega
  rw [nanPattern, signedPattern_toNat hm, hw, he]
  unfold infinityPattern
  omega

/-- A whole number nearest to `num / den`: off by at most half, and even when off by exactly half. -/
theorem divideToNearestEven_spec (num den : Nat) (h : 0 < den) :
    2 * (divideToNearestEven num den * den) ≤ 2 * num + den ∧
      2 * num ≤ 2 * (divideToNearestEven num den * den) + den ∧
      ((2 * (divideToNearestEven num den * den) = 2 * num + den ∨
        2 * num = 2 * (divideToNearestEven num den * den) + den) → divideToNearestEven num den % 2 = 0) := by
  have hdm : den * (num / den) + num % den = num := Nat.div_add_mod num den
  have hlt : num % den < den := Nat.mod_lt _ h
  have hc : num / den * den = den * (num / den) := Nat.mul_comm _ _
  unfold divideToNearestEven
  dsimp only
  split
  · refine ⟨by omega, by omega, by omega⟩
  split
  · have : (num / den + 1) * den = den * (num / den) + den := by ring
    refine ⟨by omega, by omega, by omega⟩
  · rcases Nat.mod_two_eq_zero_or_one (num / den) with hq | hq
    · rw [hq, Nat.add_zero]
      refine ⟨by omega, by omega, by omega⟩
    · have : (num / den + 1) * den = den * (num / den) + den := by ring
      rw [hq]
      refine ⟨by omega, by omega, by omega⟩

theorem roundMagnitude_le (num den : Nat) : roundMagnitude num den ≤ infinityPattern :=
  Nat.min_le_right _ _

end Sys2Proof.Machine
end

