-- ==== Sys2Proof/Laws/Memory.lean ====
section
/-! SUPPORT. The laws of Memory: a read after a write, what a write leaves alone, and the canonical form that every
operation keeps. -/

namespace Sys2Proof.Machine

@[simp] theorem readByte_nil (a : Nat) : Memory.readByte [] a = 0#8 := rfl

@[simp] theorem readByte_cons (c : Host.Cell) (m : Memory) (a : Nat) :
    Memory.readByte (c :: m) a = if c.1 = a then c.2 else m.readByte a := rfl

theorem readByte_filter (m : Memory) (a x : Nat) :
    Memory.readByte (m.filter fun c => c.1 != a) x = if x = a then 0#8 else m.readByte x := by
  induction m with
  | nil => simp
  | cons c m ih =>
    by_cases hc : c.1 = a
    · by_cases hx : x = a
      · simp_all
      · have : ¬ a = x := fun h => hx h.symm
        simp_all
    · by_cases hx : x = a
      · simp_all
      · by_cases hcx : c.1 = x <;> simp_all

theorem readByte_insertCell (m : Memory) (c : Host.Cell) (x : Nat) (h : ∀ d ∈ m, d.1 ≠ c.1) :
    Memory.readByte (insertCell m c) x = if c.1 = x then c.2 else m.readByte x := by
  induction m with
  | nil => simp [insertCell]
  | cons d m ih =>
    have hd := h d (by simp)
    unfold insertCell
    split
    · simp
    · rw [readByte_cons, ih fun e he => h e (by simp [he]), readByte_cons]
      split_ifs <;> simp_all

/-- A byte read after a write: the written one at its address, every other as before. -/
theorem readByte_writeByte (m : Memory) (a : Nat) (v : Byte) (x : Nat) :
    (m.writeByte a v).readByte x = if x = a then v else m.readByte x := by
  unfold Memory.writeByte
  split
  · simp_all [readByte_filter]
  · rw [readByte_insertCell _ _ _ (by simp), readByte_filter]
    by_cases hx : x = a
    · simp [hx]
    · have : ¬ a = x := fun h => hx h.symm
      simp [hx, this]

/-- R32: the bytes of a stored Word, and every byte outside it. -/
theorem readByte_writeWord (m : Memory) (addr : Nat) (v : Word) (x : Nat) :
    (m.writeWord addr v).readByte x =
      if addr ≤ x ∧ x < addr + 4 then wordByte v (x - addr) else m.readByte x := by
  unfold Memory.writeWord
  simp only [readByte_writeByte]
  by_cases h3 : x = addr + 3
  · simp [h3]
  by_cases h2 : x = addr + 2
  · simp [h2]
  by_cases h1 : x = addr + 1
  · simp [h1]
  by_cases h0 : x = addr
  · simp [h0]
  rw [if_neg h3, if_neg h2, if_neg h1, if_neg h0, if_neg (by omega)]

/-- R31: the Word assembled from its four bytes. -/
theorem readWord_toNat (m : Memory) (a : Nat) :
    (m.readWord a).toNat = (m.readByte a).toNat + 2 ^ 8 * (m.readByte (a + 1)).toNat +
      2 ^ 16 * (m.readByte (a + 2)).toNat + 2 ^ 24 * (m.readByte (a + 3)).toNat := by
  have h0 := (m.readByte a).isLt
  have h1 := (m.readByte (a + 1)).isLt
  have h2 := (m.readByte (a + 2)).isLt
  unfold Memory.readWord
  rw [BitVec.toNat_append, ← Nat.shiftLeft_add_eq_or_of_lt h0,
    BitVec.toNat_append, ← Nat.shiftLeft_add_eq_or_of_lt h1,
    BitVec.toNat_append, ← Nat.shiftLeft_add_eq_or_of_lt h2]
  simp only [Nat.shiftLeft_eq]
  omega

theorem wordByte_toNat (v : Word) (k : Nat) : (wordByte v k).toNat = v.toNat / 2 ^ (8 * k) % 256 := by
  simp [wordByte, Nat.shiftRight_eq_div_pow]

/-! ### The canonical form -/

theorem mem_insertCell {m : Memory} {c d : Host.Cell} : d ∈ insertCell m c ↔ d = c ∨ d ∈ m := by
  induction m with
  | nil => simp [insertCell]
  | cons e m ih =>
    unfold insertCell
    split
    · simp
    · simp only [List.mem_cons, ih]; tauto

theorem insertCell_wf {m : Memory} {c : Host.Cell} (h : Memory.wf m) (hc : c.2 ≠ 0#8)
    (hne : ∀ d ∈ m, d.1 ≠ c.1) : Memory.wf (insertCell m c) := by
  refine ⟨?_, fun d hd => ?_⟩
  · induction m with
    | nil => simp [insertCell]
    | cons e m ih =>
      obtain ⟨he, hm⟩ := List.pairwise_cons.1 h.1
      have hce : e.1 ≠ c.1 := hne e (by simp)
      unfold insertCell
      split
      · rename_i hlt
        refine List.pairwise_cons.2 ⟨fun d hd => ?_, h.1⟩
        rcases List.mem_cons.1 hd with rfl | hd
        · exact hlt
        · exact lt_trans hlt (he d hd)
      · refine List.pairwise_cons.2 ⟨fun d hd => ?_, ?_⟩
        · rcases mem_insertCell.1 hd with rfl | hd
          · omega
          · exact he d hd
        · exact ih ⟨hm, fun d hd => h.2 d (by simp [hd])⟩ fun d hd => hne d (by simp [hd])
  · rcases mem_insertCell.1 hd with rfl | hd
    · exact hc
    · exact h.2 d hd

theorem nil_wf : Memory.wf [] := ⟨List.Pairwise.nil, by simp⟩

theorem writeByte_wf {m : Memory} (h : Memory.wf m) (a : Nat) (v : Byte) : Memory.wf (m.writeByte a v) := by
  have hf : Memory.wf (m.filter fun c => c.1 != a) :=
    ⟨h.1.filter _, fun c hc => h.2 c (List.mem_filter.1 hc).1⟩
  unfold Memory.writeByte
  split
  · exact hf
  · exact insertCell_wf hf (by assumption) (by simp)

/-- The one operation with which an instruction changes Memory keeps the canonical form. -/
theorem writeWord_wf {m : Memory} (h : Memory.wf m) (addr : Nat) (v : Word) : Memory.wf (m.writeWord addr v) :=
  writeByte_wf (writeByte_wf (writeByte_wf (writeByte_wf h _ _) _ _) _ _) _ _

theorem address_of_mem_writeByte {m : Memory} {a : Nat} {v : Byte} {c : Host.Cell} (h : c ∈ m.writeByte a v) :
    c.1 = a ∨ c ∈ m := by
  unfold Memory.writeByte at h
  split at h
  · exact .inr (List.mem_filter.1 h).1
  · rcases mem_insertCell.1 h with rfl | h
    · exact .inl rfl
    · exact .inr (List.mem_filter.1 h).1

/-- The cells after a store are those of the stored Word or were there before. -/
theorem address_of_mem_writeWord {m : Memory} {addr : Nat} {v : Word} {c : Host.Cell}
    (h : c ∈ m.writeWord addr v) : (addr ≤ c.1 ∧ c.1 < addr + 4) ∨ c ∈ m := by
  rcases address_of_mem_writeByte h with h | h
  · omega
  rcases address_of_mem_writeByte h with h | h
  · omega
  rcases address_of_mem_writeByte h with h | h
  · omega
  rcases address_of_mem_writeByte h with h | h
  · omega
  · exact .inr h

theorem readByte_of_below {m : Memory} {a : Nat} (h : ∀ d ∈ m, a < d.1) : Memory.readByte m a = 0#8 := by
  induction m with
  | nil => rfl
  | cons d m ih =>
    have := h d (by simp)
    rw [readByte_cons, if_neg (by omega)]
    exact ih fun e he => h e (by simp [he])

/-- Equal memories are equal data: two memories in canonical form that read alike are the same list. -/
theorem eq_of_readByte_eq {m n : Memory} (hm : Memory.wf m) (hn : Memory.wf n)
    (h : ∀ a, m.readByte a = n.readByte a) : m = n := by
  induction m generalizing n with
  | nil =>
    cases n with
    | nil => rfl
    | cons d n => exact absurd (by simpa using (h d.1).symm) (hn.2 d (by simp))
  | cons c m ih =>
    obtain ⟨hc, hm'⟩ := List.pairwise_cons.1 hm.1
    cases n with
    | nil => exact absurd (by simpa using h c.1) (hm.2 c (by simp))
    | cons d n =>
      obtain ⟨hd, hn'⟩ := List.pairwise_cons.1 hn.1
      have hcd : c.1 = d.1 := by
        rcases lt_trichotomy c.1 d.1 with hlt | heq | hgt
        · have h0 : Memory.readByte (d :: n) c.1 = 0#8 := readByte_of_below fun e he => by
            rcases List.mem_cons.1 he with rfl | he
            · exact hlt
            · exact lt_trans hlt (hd e he)
          exact absurd (by simpa [h0] using h c.1) (hm.2 c (by simp))
        · exact heq
        · have h0 : Memory.readByte (c :: m) d.1 = 0#8 := readByte_of_below fun e he => by
            rcases List.mem_cons.1 he with rfl | he
            · exact hgt
            · exact lt_trans hgt (hc e he)
          exact absurd (by simpa [h0] using (h d.1).symm) (hn.2 d (by simp))
      have hval : c.2 = d.2 := by simpa [hcd] using h c.1
      have hrest : m = n := by
        refine ih ⟨hm', fun e he => hm.2 e (by simp [he])⟩ ⟨hn', fun e he => hn.2 e (by simp [he])⟩ fun a => ?_
        by_cases ha : c.1 = a
        · subst ha
          rw [readByte_of_below hc, hcd, readByte_of_below hd]
        · simpa [ha, ← hcd] using h a
      rw [hrest, Prod.ext hcd hval]

end Sys2Proof.Machine
end

