-- ==== Sys2Proof/Laws/PerInstr.lean ====
section
/-! SUPPORT. The statement made for each instruction as syntax: its Word under the default opcode map is its number
in the table, and decodes back to it. -/

namespace Sys2Proof.Laws.WordDecodesBack

/-- R41, R43: the Word of an instruction decodes to it. -/
def Statement (i : Instr) : Prop :=
  decode defaultOpMap (encode defaultOpMap i) = some i

theorem load : Statement .load := rfl
theorem write : Statement .write := rfl
theorem loadConst0 : Statement .loadConst0 := rfl
theorem loadConst1 : Statement .loadConst1 := rfl
theorem duplicate : Statement .duplicate := rfl
theorem pop : Statement .pop := rfl
theorem jump : Statement .jump := rfl
theorem call : Statement .call := rfl
theorem ret : Statement .ret := rfl
theorem panic : Statement .panic := rfl
theorem addInt : Statement .addInt := rfl
theorem subtractInt : Statement .subtractInt := rfl
theorem multiplyInt : Statement .multiplyInt := rfl
theorem divideInt : Statement .divideInt := rfl
theorem moduloInt : Statement .moduloInt := rfl
theorem addFloat : Statement .addFloat := rfl
theorem subtractFloat : Statement .subtractFloat := rfl
theorem multiplyFloat : Statement .multiplyFloat := rfl
theorem divideFloat : Statement .divideFloat := rfl
theorem moduloFloat : Statement .moduloFloat := rfl

end Sys2Proof.Laws.WordDecodesBack
end

