-- ==== Sys2Proof/Laws/Step.lean ====
section
/-! SUPPORT. What one step can do, said once. -/

namespace Sys2Proof.Machine

section Cycle
variable {s t : State}

theorem step_of_halted (h : s.status ≠ .run) : step s = .next s := by
  unfold step cycle
  split <;> simp_all

theorem step_of_running (h : s.status = .run) : step s = runCycle exec s := by
  unfold step cycle
  split <;> simp_all

theorem fetch_eq_none : fetch s = none ↔ s.prog.length ≤ s.ip.toNat := by
  simp [fetch]

/-- R74: the four ways a step comes to its next state. -/
theorem step_next (h : step s = .next t) :
    (s.status ≠ .run ∧ t = s) ∨
    (s.status = .run ∧ s.prog.length ≤ s.ip.toNat ∧ t = enterEnd s) ∨
    (s.status = .run ∧ ∃ w, fetch s = some w ∧ decode s.params.opmap w = none ∧
      t = { s with ip := s.ip + 1#32 }) ∨
    (s.status = .run ∧ ∃ w i u, fetch s = some w ∧ decode s.params.opmap w = some i ∧ exec i s = .next u ∧
      t = advance s.ip u) := by
  by_cases hr : s.status = .run
  · rw [step_of_running hr] at h
    unfold runCycle at h
    split at h
    · rename_i hf; cases h
      exact .inr (.inl ⟨hr, fetch_eq_none.1 hf, rfl⟩)
    · rename_i w hf
      split at h
      · rename_i hd; cases h
        exact .inr (.inr (.inl ⟨hr, w, hf, hd, advance_of_unmoved s hr⟩))
      · rename_i i hd
        split at h
        · rename_i u hu; cases h
          exact .inr (.inr (.inr ⟨hr, w, i, u, hf, hd, hu, rfl⟩))
        · cases h
        · cases h
  · rw [step_of_halted hr] at h; cases h
    exact .inl ⟨hr, rfl⟩

/-- A step at an instruction is that instruction's execution and the advance. -/
theorem step_of_exec {i : Instr} {w : Word} {u : State} (hr : s.status = .run) (hf : fetch s = some w)
    (hd : decode s.params.opmap w = some i) (hu : exec i s = .next u) : step s = .next (advance s.ip u) := by
  rw [step_of_running hr]
  simp [runCycle, hf, hd, hu]

end Cycle

end Sys2Proof.Machine
end

