-- ==== Sys2Proof/Tests/Slice0.lean ====
section
/-! SUPPORT. Tests on small states, their expected results from spec/95_test_vectors.md and the rules' own examples,
and for each statement of Certificates/Slice0/Obligations.lean that has hypotheses a state that meets them. -/

namespace Sys2Proof.Tests

open Sys2Proof.Machine

/-! ### Helpers -/

/-- A core at index 0 of the one-word program `w`, with the stack written as the spec writes it, top rightmost. -/
def atWord (w : Word) (stack : List Word) : State :=
  { State.reset with prog := [w], stack := stack.reverse }

/-- The same at index 2 of a program of eight Words, as in section 2.5 of the vectors. -/
def atIndexTwo (w : Word) (stack : List Word) (frames : List Frame) : State :=
  { State.reset with
    prog := [0xFFFFFFFF#32, 0xFFFFFFFF#32, w, 0xFFFFFFFF#32, 0xFFFFFFFF#32, 8#32, 0xFFFFFFFF#32, 0xFFFFFFFF#32]
    ip := 2#32
    stack := stack.reverse
    frames := frames }

/-- Bytes 78 56 34 12 at addresses 0 to 3, 01 at 1020 and 80 at 1023. -/
def sampleMemory : Memory :=
  [(0, 0x78#8), (1, 0x56#8), (2, 0x34#8), (3, 0x12#8), (1020, 0x01#8), (1023, 0x80#8)]

/-- The state after one step. -/
def after (s : State) : Option State :=
  match step s with
  | .next t => some t
  | .fault _ => none
  | .refused _ => none

/-- The stack after one step at index 0, top rightmost, where the pointer has advanced by one and the core runs. -/
def stackAfter (w : Word) (stack : List Word) : Option (List Word) :=
  match after (atWord w stack) with
  | some t => if t.ip = 1#32 ∧ t.status = .run then some t.stack.reverse else none
  | none => none

/-- The cause a step at index 0 faults with, where it changes nothing else. -/
def causeAfter (s : State) : Option Cause :=
  match after s with
  | some t => if t = raiseFault t.cause s then some t.cause else none
  | none => none

/-! ### Well-formedness: a term each check accepts, and an ill-formed one it refuses -/

theorem test_reference_params_well_formed : Params.reference.wellFormed = true := by decide
theorem test_every_instruction_well_formed : Instr.all.all Instr.wellFormed = true := by decide
theorem test_ill_formed_opmap_refused :
    ({ Params.reference with opmap := { defaultOpMap with write := 0#32 } } : Params).wellFormed = false := by decide
theorem test_ill_formed_memory_size_refused :
    ({ Params.reference with memSize := 2 ^ 32 + 1 } : Params).wellFormed = false := by decide
theorem test_ill_formed_stack_capacity_refused :
    ({ Params.reference with stackCap := some 1 } : Params).wellFormed = false := by decide
theorem test_ill_formed_frame_capacity_refused :
    ({ Params.reference with frameCap := some 0 } : Params).wellFormed = false := by decide
theorem test_least_capacities_accepted :
    ({ Params.reference with stackCap := some 2, frameCap := some 1 } : Params).wellFormed = true := by decide
theorem test_ill_formed_program_length_refused :
    programWellFormed (List.replicate (2 ^ 32) 0#32) = false := by
  rw [programWellFormed, List.length_replicate]; rfl

/-! ### Decode: every row of the opcode map of rule R42, its Word written out; section 2.1 -/

theorem test_decode_memory :
    decode defaultOpMap 0b00000000000000000000000000000000#32 = some .load ∧
    decode defaultOpMap 0b00000000000000000000000000000001#32 = some .write := by decide
theorem test_decode_stack :
    decode defaultOpMap 0b00000000000000000000000000000010#32 = some .loadConst0 ∧
    decode defaultOpMap 0b00000000000000000000000000000011#32 = some .loadConst1 ∧
    decode defaultOpMap 0b00000000000000000000000000000100#32 = some .duplicate ∧
    decode defaultOpMap 0b00000000000000000000000000000101#32 = some .pop := by decide
theorem test_decode_control :
    decode defaultOpMap 0b00000000000000000000000000000110#32 = some .jump ∧
    decode defaultOpMap 0b00000000000000000000000000000111#32 = some .call ∧
    decode defaultOpMap 0b00000000000000000000000000001000#32 = some .ret ∧
    decode defaultOpMap 0b00000000000000000000000000001001#32 = some .panic := by decide
theorem test_decode_integer :
    decode defaultOpMap 0b00000000000000000000000000001010#32 = some .addInt ∧
    decode defaultOpMap 0b00000000000000000000000000001011#32 = some .subtractInt ∧
    decode defaultOpMap 0b00000000000000000000000000001100#32 = some .multiplyInt ∧
    decode defaultOpMap 0b00000000000000000000000000001101#32 = some .divideInt ∧
    decode defaultOpMap 0b00000000000000000000000000001110#32 = some .moduloInt := by decide
theorem test_decode_float :
    decode defaultOpMap 0b00000000000000000000000000001111#32 = some .addFloat ∧
    decode defaultOpMap 0b00000000000000000000000000010000#32 = some .subtractFloat ∧
    decode defaultOpMap 0b00000000000000000000000000010001#32 = some .multiplyFloat ∧
    decode defaultOpMap 0b00000000000000000000000000010010#32 = some .divideFloat ∧
    decode defaultOpMap 0b00000000000000000000000000010011#32 = some .moduloFloat := by decide
theorem test_decode_no_instruction :
    decode defaultOpMap 0x00000014#32 = none ∧ decode defaultOpMap 0xFFFFFFFF#32 = none ∧
    decode defaultOpMap 0x0A000000#32 = none ∧ decode defaultOpMap 0x0100000A#32 = none ∧
    decode defaultOpMap 0x8000000A#32 = none := by decide
theorem test_no_instruction_steps_over : stackAfter 20#32 [4#32, 5#32] = some [4#32, 5#32] := by decide
theorem test_table_word : decodeTableWord 32 19 = some .moduloFloat ∧ decodeTableWord 32 20 = none := by decide

/-! ### One step of each instruction (sections 2.2 to 2.7 of the vectors) -/

theorem test_load_misaligned :
    (after { atWord 0#32 [1#32] with mem := sampleMemory }).map State.stack = some [0x00123456#32] := by decide
theorem test_load_past_the_last_address : causeAfter (atWord 0#32 [1021#32]) = some .memRange := by decide
theorem test_write_little_endian :
    (after (atWord 1#32 [9#32, 0#32, 0x01020304#32])).map (fun t => (t.stack, t.mem)) =
      some ([9#32], [(0, 0x04#8), (1, 0x03#8), (2, 0x02#8), (3, 0x01#8)]) := by decide
theorem test_write_zero_removes_cells :
    (after { atWord 1#32 [1#32, 0#32] with mem := sampleMemory }).map State.mem =
      some [(0, 0x78#8), (1020, 0x01#8), (1023, 0x80#8)] := by decide
theorem test_load_const_0 : stackAfter 2#32 [] = some [0#32] := by decide
theorem test_load_const_0_fills_the_stack :
    (after { atWord 2#32 [1#32] with params := { Params.reference with stackCap := some 2 } }).map State.stack =
      some [0#32, 1#32] := by decide
theorem test_load_const_1 : stackAfter 3#32 [5#32] = some [5#32, 1#32] := by decide
theorem test_load_const_1_on_a_full_stack :
    causeAfter { atWord 3#32 [1#32, 2#32] with params := { Params.reference with stackCap := some 2 } } =
      some .stackOverflow := by decide
theorem test_duplicate_two_deep : stackAfter 4#32 [9#32, 5#32, 6#32, 2#32] = some [9#32, 5#32, 6#32, 9#32] := by
  decide
theorem test_duplicate_below_the_bottom :
    stackAfter 4#32 [1#32, 2#32, 3#32, 4#32, 4#32] = some [1#32, 2#32, 3#32, 4#32, 0#32] := by decide
theorem test_pop : stackAfter 5#32 [1#32, 2#32, 3#32] = some [1#32, 2#32] := by decide
theorem test_pop_of_empty : stackAfter 5#32 [] = some [] := by decide
theorem test_jump : (after (atIndexTwo 6#32 [5#32] [])).map (fun t => (t.ip, t.stack)) = some (5#32, []) := by decide
theorem test_jump_to_its_own_index :
    (after (atIndexTwo 6#32 [7#32, 2#32] [])).map (fun t => (t.ip, t.stack)) = some (3#32, [7#32]) := by decide
theorem test_call :
    (after (atIndexTwo 7#32 [9#32, 5#32] [])).map (fun t => (t.ip, t.stack, t.frames)) =
      some (5#32, [9#32], [⟨1, 3#32⟩]) := by decide
/-- R18: with a finite capacity the field is wide enough for it; with none it has 32 bits. -/
theorem test_widest_bound_recorded :
    recordedBound Params.reference (2 ^ 32 - 1) = 2 ^ 32 - 1 ∧
    recordedBound { Params.reference with stackCap := some (2 ^ 40) } (2 ^ 40) = 2 ^ 40 := by decide
theorem test_call_underflow_before_frame_overflow :
    (after { atIndexTwo 7#32 [] [⟨0, 1#32⟩] with params := { Params.reference with frameCap := some 1 } }).map
      (fun t => (t.ip, t.status)) = some (3#32, .run) := by decide
theorem test_return_truncates :
    (after (atIndexTwo 8#32 [1#32, 2#32, 3#32] [⟨2, 7#32⟩, ⟨0, 1#32⟩])).map
      (fun t => (t.ip, t.stack, t.frames)) = some (7#32, [2#32, 1#32], [⟨0, 1#32⟩]) := by decide
theorem test_return_below_its_bound :
    (after (atIndexTwo 8#32 [1#32] [⟨3, 3#32⟩])).map (fun t => (t.ip, t.stack)) = some (3#32, [1#32]) := by decide
theorem test_panic :
    after (atIndexTwo 9#32 [4#32, 5#32] [⟨1, 1#32⟩]) =
      some { atIndexTwo 9#32 [4#32, 5#32] [⟨1, 1#32⟩] with status := .panic } := by decide
theorem test_add_int_wraps : stackAfter 10#32 [0xFFFFFFFF#32, 1#32] = some [0#32] := by decide
theorem test_add_int_underflow : stackAfter 10#32 [9#32] = some [9#32] := by decide
theorem test_subtract_int_order : stackAfter 11#32 [3#32, 5#32] = some [0xFFFFFFFE#32] := by decide
theorem test_multiply_int : stackAfter 12#32 [0x12345678#32, 0x9ABCDEF0#32] = some [0x242D2080#32] := by decide
theorem test_divide_int_unsigned : stackAfter 13#32 [0x80000000#32, 0xFFFFFFFF#32] = some [0#32] := by decide
theorem test_divide_int_by_zero : causeAfter (atWord 13#32 [5#32, 0#32]) = some .divZero := by decide
theorem test_modulo_int : stackAfter 14#32 [0xFFFFFFFF#32, 0x10#32] = some [0xF#32] := by decide
theorem test_modulo_int_by_zero : causeAfter (atWord 14#32 [5#32, 0#32]) = some .divZero := by decide
theorem test_add_float_source_example :
    stackAfter 15#32 [0x3FC00000#32, 0x40200000#32] = some [0x40800000#32] := by decide
theorem test_add_float_tie_to_even_up :
    stackAfter 15#32 [0x3F800001#32, 0x33800000#32] = some [0x3F800002#32] := by decide
theorem test_subtract_float_order :
    stackAfter 16#32 [0x40100000#32, 0x40B00000#32] = some [0xC0500000#32] := by decide
theorem test_multiply_float_subnormal :
    stackAfter 17#32 [0x00800000#32, 0x3F000000#32] = some [0x00400000#32] := by decide
theorem test_multiply_float_inf_times_zero : productOf (unpackFloat 0x7F800000#32) (unpackFloat 0#32) = none := by
  decide
theorem test_divide_float_rounds : stackAfter 18#32 [0x3F800000#32, 0x40400000#32] = some [0x3EAAAAAB#32] := by
  decide
theorem test_divide_float_by_negative_zero :
    stackAfter 18#32 [0x3F800000#32, 0x80000000#32] = some [0xFF800000#32] := by decide
theorem test_modulo_float_sign_of_dividend :
    stackAfter 19#32 [0xC0B00000#32, 0x40000000#32] = some [0xBFC00000#32] := by decide
theorem test_modulo_float_negative_zero :
    stackAfter 19#32 [0xC0800000#32, 0x40000000#32] = some [0x80000000#32] := by decide

/-! ### Reset and the end of the program -/

theorem test_reset_memory_well_formed : State.reset.mem.wf := nil_wf
theorem test_reset_of_the_empty_program_ends :
    after State.reset = some { State.reset with status := .ended } := by decide
theorem test_fetch_word_is_run :
    (after (State.reset.withFetchWord 32 3)).map (fun t => (t.ip, t.stack)) = some (1#32, [1#32]) := by decide
theorem test_jump_out_of_the_program_ends :
    ((after (atIndexTwo 6#32 [100#32] [])).bind after).map (fun t => (t.ip, t.status)) = some (100#32, .ended) := by
  decide

/-! ### For each statement with hypotheses, states and operands that meet them, clause by clause -/

/-- The reference core with capacities 2 and 1. -/
def tinyParams : Params := { Params.reference with stackCap := some 2, frameCap := some 1 }

theorem witness_DecodeInvertsTheOpcodeMap : defaultOpMap.wellFormed = true := default_wellFormed

theorem witness_OpcodeTableNumbersOperandsAndDepthChange :
    (atWord 1#32 [7#32]).status = .run ∧ (atWord 1#32 [7#32]).stack.length < 2 ∧
    2 ≤ (atWord 1#32 [0#32, 7#32]).stack.length ∧
    (after (atWord 1#32 [0#32, 7#32])).map State.status = some .run := by decide

theorem witness_WordsThatAreNoInstructionAreNoOps : AtNoInstruction (atWord 20#32 []) := ⟨rfl, _, rfl, rfl⟩

theorem witness_StepRunsTheDecodedInstruction :
    (enterPanic (atWord 9#32 [])).status ≠ .run ∧
    ((atIndexTwo 6#32 [] []).status = .run ∧
      ({ atIndexTwo 6#32 [] [] with ip := 8#32 } : State).prog.length ≤ (8#32 : Word).toNat) ∧
    AtNoInstruction (atWord 0xFFFFFFFF#32 []) ∧ AtInstr (atWord 19#32 []) .moduloFloat :=
  ⟨by decide, by decide, ⟨rfl, _, rfl, rfl⟩, ⟨rfl, _, rfl, rfl⟩⟩

theorem witness_ThePointerAdvancesUnlessTheInstructionMovedIt :
    AtInstr (atWord 9#32 []) .panic ∧ AtInstr (atWord 5#32 [1#32]) .pop ∧
    (AtInstr (atWord 10#32 [1#32]) .addInt ∧ (atWord 10#32 [1#32]).stack.length < operandsNeeded .addInt) ∧
    (AtInstr (atWord 8#32 [1#32]) .ret ∧ (atWord 8#32 [1#32]).frames = []) ∧
    AtNoInstruction (atWord 20#32 []) ∧
    (AtInstr (atIndexTwo 6#32 [2#32] []) .jump ∧ (atIndexTwo 6#32 [2#32] []).stack = [2#32]) ∧
    (AtInstr (atIndexTwo 7#32 [5#32] []) .call ∧ (atIndexTwo 7#32 [5#32] []).stack = [5#32] ∧
      (atIndexTwo 7#32 [5#32] []).params.frameCap ≠ some 0 ∧ FitsBoundWidth (atIndexTwo 7#32 [5#32] []).params 0) ∧
    (AtInstr { atIndexTwo 7#32 [5#32] [⟨0, 1#32⟩] with params := tinyParams } .call ∧
      tinyParams.frameCap = some (atIndexTwo 7#32 [5#32] [⟨0, 1#32⟩]).frames.length) ∧
    (AtInstr (atIndexTwo 8#32 [] [⟨0, 2#32⟩]) .ret ∧ (atIndexTwo 8#32 [] [⟨0, 2#32⟩]).frames = [⟨0, 2#32⟩]) :=
  ⟨⟨rfl, _, rfl, rfl⟩, ⟨rfl, _, rfl, rfl⟩, ⟨⟨rfl, _, rfl, rfl⟩, by decide⟩, ⟨⟨rfl, _, rfl, rfl⟩, rfl⟩,
    ⟨rfl, _, rfl, rfl⟩, ⟨⟨rfl, _, rfl, rfl⟩, rfl⟩, ⟨⟨rfl, _, rfl, rfl⟩, rfl, by decide, by decide⟩,
    ⟨⟨rfl, _, rfl, rfl⟩, rfl⟩, ⟨⟨rfl, _, rfl, rfl⟩, rfl⟩⟩

theorem witness_EveryRunningStepMovesThePointer :
    (atIndexTwo 6#32 [2#32] []).status = .run ∧
    (after (atIndexTwo 6#32 [2#32] [])).map (fun t => (t.status, t.ip)) = some (.run, 3#32) := by decide

theorem witness_ThePointerChangesInThreeWays :
    exec .pop (atWord 5#32 []) = .next (atWord 5#32 []) ∧
    programWellFormed (atWord 5#32 []).prog = true ∧ (after (atWord 5#32 [])).isSome = true :=
  ⟨rfl, by decide, by decide⟩

theorem witness_HaltedStatesAreFixedPoints : (enterEnd State.reset).status ≠ .run := by decide

theorem witness_AStepReadsOneProgramWord :
    ([5#32, 7#32] : List Word)[(atWord 5#32 []).ip.toNat]? = (atWord 5#32 []).prog[(atWord 5#32 []).ip.toNat]? ∧
    (after (atWord 5#32 [])).isSome = true := by decide

theorem witness_ProgramAndParametersNeverChange :
    Host.Core.run Sys2Proof.core 0 State.reset = .next State.reset ∧
    Host.Core.run Sys2Proof.core 1 State.reset = .next (enterEnd State.reset) := ⟨rfl, rfl⟩

theorem witness_TheFirstStepIsAtIndexZero :
    decode Params.reference.opmap 9#32 = some .panic ∧ decode Params.reference.opmap 0#32 = some .load ∧
    decode Params.reference.opmap 20#32 = none := by decide

/-- The reset state with one program word meets the invariant. -/
theorem inv_atWord_empty (w : Word) : (atWord w []).Inv where
  params_ok := test_reference_params_well_formed
  prog_ok := rfl
  mem_canonical := nil_wf
  mem_in_range := by intro c h; exact absurd h List.not_mem_nil
  stack_fits := by intro c h; cases h
  frames_fit := by intro c h; cases h
  bounds_fit := by intro f h; exact absurd h List.not_mem_nil
  bounds_have_their_width := by intro f h; exact absurd h List.not_mem_nil
  resumes_after_a_call := by intro f h; exact absurd h List.not_mem_nil
  cause_iff_fault := ⟨fun h => absurd rfl h, fun h => by cases h⟩
  ended_past_program := by intro h; cases h
  halted_in_program := by rintro (h | h) <;> cases h

theorem witness_EveryStepKeepsTheMachineInvariant :
    (atWord 2#32 []).Inv ∧ (after (atWord 2#32 [])).isSome = true := ⟨inv_atWord_empty _, by decide⟩

theorem witness_ResetMeetsTheMachineInvariant :
    tinyParams.wellFormed = true ∧ programWellFormed [9#32] = true := by decide

theorem witness_UnderflowIsAllOrNothing :
    (atWord 0#32 []).stack.length < operandsNeeded .load ∧
    (atWord 13#32 [0#32]).stack.length < operandsNeeded .divideInt := by decide

theorem witness_HaltingChangesStatusAndCauseAlone :
    (after (atWord 13#32 [5#32, 0#32])).map State.status = some .fault ∧
    (after (atWord 9#32 [])).map State.status = some .panic ∧
    (after State.reset).map State.status = some .ended := by decide

theorem witness_FatalConditionsAreExactlyTheListedOnes :
    (AtInstr (atWord 9#32 []) .panic ∧ (atWord 9#32 []).Inv) ∧ AtInstr (atWord 14#32 [5#32, 0#32]) .moduloInt ∧
    (AtInstr (atWord 0#32 [1021#32]) .load ∧ Params.reference.memSize < (1021#32 : Word).toNat + 4) ∧
    (AtInstr (atWord 1#32 [1021#32, 1#32]) .write) ∧
    (AtInstr { atWord 2#32 [1#32, 2#32] with params := tinyParams } .loadConst0 ∧ tinyParams.stackCap = some 2) ∧
    (AtInstr { atIndexTwo 7#32 [5#32] [⟨0, 1#32⟩] with params := tinyParams } .call ∧
      tinyParams.frameCap = some 1) :=
  ⟨⟨⟨rfl, _, rfl, rfl⟩, inv_atWord_empty _⟩, ⟨rfl, _, rfl, rfl⟩, ⟨⟨rfl, _, rfl, rfl⟩, by decide⟩, ⟨rfl, _, rfl, rfl⟩,
    ⟨⟨rfl, _, rfl, rfl⟩, rfl⟩, ⟨⟨rfl, _, rfl, rfl⟩, rfl⟩⟩

theorem witness_ChecksAreMadeInTheirOrder :
    (({ atIndexTwo 6#32 [] [] with ip := 8#32 } : State).status = .run ∧
      (atIndexTwo 6#32 [] []).prog.length ≤ (8#32 : Word).toNat) ∧
    AtNoInstruction (atWord 20#32 []) ∧
    (AtInstr (atWord 13#32 [0#32]) .divideInt ∧ LacksItsInput .divideInt (atWord 13#32 [0#32])) ∧
    (AtInstr (atWord 13#32 [0#32, 0#32]) .divideInt ∧ ¬ LacksItsInput .divideInt (atWord 13#32 [0#32, 0#32]) ∧
      FaultCondition .divideInt (atWord 13#32 [0#32, 0#32]) .divZero) ∧
    (AtInstr (atWord 5#32 [0#32]) .pop ∧ ¬ LacksItsInput .pop (atWord 5#32 [0#32]) ∧
      ∀ c, ¬ FaultCondition .pop (atWord 5#32 [0#32]) c) :=
  ⟨by decide, ⟨rfl, _, rfl, rfl⟩, ⟨⟨rfl, _, rfl, rfl⟩, .inl (by decide)⟩,
    ⟨⟨rfl, _, rfl, rfl⟩, by unfold LacksItsInput; decide, .inr (.inr (.inr (.inr ⟨rfl, .inl rfl, rfl⟩)))⟩,
    ⟨⟨rfl, _, rfl, rfl⟩, by unfold LacksItsInput; decide, by intro c; simp [FaultCondition]⟩⟩

theorem witness_TheListedConditionsNeverStopTheCore :
    AtNoInstruction (atWord 20#32 []) ∧
    (AtInstr (atWord 8#32 []) .ret ∧ LacksItsInput .ret (atWord 8#32 [])) ∧
    (AtInstr (atWord 4#32 [8#32, 1#32]) .duplicate ∧ (atWord 4#32 [8#32, 1#32]).stack = [1#32, 8#32] ∧
      1 ≤ (1#32 : Word).toNat) ∧
    (AtInstr (atIndexTwo 6#32 [8#32] []) .jump ∧ (atIndexTwo 6#32 [8#32] []).stack = [8#32] ∧
      (atIndexTwo 6#32 [8#32] []).prog.length ≤ (8#32 : Word).toNat) ∧
    (AtInstr { atIndexTwo 7#32 [8#32] [] with params := tinyParams } .call ∧
      (atIndexTwo 7#32 [8#32] []).stack = [8#32] ∧
      tinyParams.frameCap ≠ some (atIndexTwo 7#32 [8#32] []).frames.length ∧
      (atIndexTwo 7#32 [8#32] []).prog.length ≤ (8#32 : Word).toNat) ∧
    (AtInstr (atIndexTwo 8#32 [] [⟨0, 8#32⟩]) .ret ∧ (atIndexTwo 8#32 [] [⟨0, 8#32⟩]).frames = [⟨0, 8#32⟩] ∧
      (atIndexTwo 8#32 [] [⟨0, 8#32⟩]).prog.length ≤ (8#32 : Word).toNat) ∧
    AtInstr (atWord 18#32 [0#32, 0#32]) .divideFloat :=
  ⟨⟨rfl, _, rfl, rfl⟩, ⟨⟨rfl, _, rfl, rfl⟩, .inr ⟨rfl, rfl⟩⟩, ⟨⟨rfl, _, rfl, rfl⟩, rfl, by decide⟩,
    ⟨⟨rfl, _, rfl, rfl⟩, rfl, by decide⟩, ⟨⟨rfl, _, rfl, rfl⟩, rfl, by decide, by decide⟩,
    ⟨⟨rfl, _, rfl, rfl⟩, rfl, by decide⟩, ⟨rfl, _, rfl, rfl⟩⟩

theorem witness_EntriesBelowTheBoundSurviveReturn :
    (atIndexTwo 8#32 [1#32, 2#32] [⟨1, 3#32⟩]).frames = [⟨1, 3#32⟩] ∧
    (after (atIndexTwo 8#32 [1#32, 2#32] [⟨1, 3#32⟩])).map State.stack = some [1#32] := by decide

theorem witness_OnlyWriteChangesMemoryAndOnlyLoadReadsIt :
    exec .pop (atWord 5#32 [1#32]) = .next (atWord 5#32 []) ∧
    exec .write (atWord 1#32 []) = .next (atWord 1#32 []) := ⟨rfl, rfl⟩

theorem witness_OnlyCallAndReturnTouchTheFrameStack :
    exec .pop (atWord 5#32 [1#32]) = .next (atWord 5#32 []) ∧
    exec .call (atWord 7#32 []) = .next (atWord 7#32 []) ∧
    exec .ret (atIndexTwo 8#32 [] [⟨0, 2#32⟩]) = .next (atIndexTwo 8#32 [] []) := ⟨rfl, rfl, rfl⟩

theorem witness_NoInstructionReadsStatusOrCause :
    exec .panic (atWord 9#32 []) = .next (enterPanic (atWord 9#32 [])) := rfl

theorem witness_OnlyTheLiteralsCanOverflowTheStack :
    exec .pop (atWord 5#32 [1#32]) = .next (atWord 5#32 []) ∧
    tinyParams.stackCap = some (atWord 2#32 [1#32, 2#32]).stack.length ∧
    (atWord 2#32 [1#32]).params.stackCap = none ∧
    (Within (atWord 2#32 [1#32]).stack.length tinyParams.stackCap ∧
      (after { atWord 2#32 [1#32] with params := tinyParams }).isSome = true) :=
  ⟨rfl, rfl, rfl, by intro c h; cases h; decide, by decide⟩

theorem witness_TheFrameStackHoldsAtMostItsCapacity :
    tinyParams.frameCap = some (atIndexTwo 7#32 [5#32] [⟨0, 1#32⟩]).frames.length ∧
    (atWord 8#32 []).frames = [] ∧
    (Within (atWord 7#32 [1#32]).frames.length tinyParams.frameCap ∧
      (after { atWord 7#32 [1#32] with params := tinyParams }).isSome = true) :=
  ⟨rfl, rfl, by intro c h; cases h; decide, by decide⟩

theorem witness_LoadReadsTheWordAtThePoppedAddress :
    (atWord 0#32 []).stack = [] ∧
    ((atWord 0#32 [1021#32]).stack = [1021#32] ∧ Params.reference.memSize < (1021#32 : Word).toNat + 4) ∧
    ((atWord 0#32 [1020#32]).stack = [1020#32] ∧ (1020#32 : Word).toNat + 4 ≤ Params.reference.memSize) := by decide

theorem witness_WriteStoresTheValueAtTheAddressBeneath :
    (atWord 1#32 [5#32]).stack.length < 2 ∧
    ((atWord 1#32 [1021#32, 1#32]).stack = [1#32, 1021#32] ∧
      Params.reference.memSize < (1021#32 : Word).toNat + 4) ∧
    ((atWord 1#32 [1020#32, 1#32]).stack = [1#32, 1020#32] ∧
      (1020#32 : Word).toNat + 4 ≤ Params.reference.memSize) := by decide

theorem witness_LoadAfterWriteReadsTheStoredBytes :
    (atWord 1#32 [1020#32, 1#32]).stack = [1#32, 1020#32] ∧
    (1020#32 : Word).toNat + 4 ≤ (atWord 1#32 [1020#32, 1#32]).params.memSize ∧
    (1018#32 : Word).toNat + 4 ≤ (atWord 1#32 [1020#32, 1#32]).params.memSize := by decide

theorem witness_LoadConstPushesItsLiteral :
    tinyParams.stackCap = some (atWord 2#32 [1#32, 2#32]).stack.length ∧
    tinyParams.stackCap ≠ some (atWord 2#32 [1#32]).stack.length := by decide

theorem witness_DuplicatePushesTheEntryNBelowTheNewTop :
    (atWord 4#32 []).stack = [] ∧
    ((atWord 4#32 [7#32, 0#32]).stack = [0#32, 7#32] ∧ (0#32 : Word).toNat < 1) ∧
    ((atWord 4#32 [8#32, 1#32]).stack = [1#32, 8#32] ∧ 1 ≤ (1#32 : Word).toNat) := by decide

theorem witness_PopDiscardsTheTop : (atWord 5#32 []).stack = [] ∧ (atWord 5#32 [7#32]).stack = [7#32] := by decide

theorem witness_JumpSetsThePointerToThePoppedTarget :
    (atIndexTwo 6#32 [] []).stack = [] ∧ (atIndexTwo 6#32 [8#32] []).stack = [8#32] ∧
    AtInstr (atIndexTwo 6#32 [8#32] []) .jump ∧ (atIndexTwo 6#32 [8#32] []).prog.length ≤ (8#32 : Word).toNat :=
  ⟨rfl, rfl, ⟨rfl, _, rfl, rfl⟩, by decide⟩

theorem witness_CallPushesAFrameAndTransfers :
    (atIndexTwo 7#32 [] []).stack = [] ∧ (atIndexTwo 7#32 [8#32] []).stack = [8#32] ∧
    tinyParams.frameCap = some (atIndexTwo 7#32 [8#32] [⟨0, 1#32⟩]).frames.length ∧
    tinyParams.frameCap ≠ some (atIndexTwo 7#32 [8#32] []).frames.length ∧
    FitsBoundWidth Params.reference ((atIndexTwo 7#32 [8#32] []).stack.length - 1) ∧
    FitsBoundWidth tinyParams ((atIndexTwo 7#32 [8#32] []).stack.length - 1) ∧
    FitsBoundWidth Params.reference (2 ^ 32 - 1) ∧ ¬ FitsBoundWidth Params.reference (2 ^ 32) ∧
    AtInstr { atIndexTwo 7#32 [8#32] [] with params := tinyParams } .call ∧
    (atIndexTwo 7#32 [8#32] []).prog.length ≤ (8#32 : Word).toNat :=
  ⟨rfl, rfl, rfl, by decide, by decide, by decide, by decide, by decide, ⟨rfl, _, rfl, rfl⟩, by decide⟩

theorem witness_ReturnTruncatesToTheBoundAndResumes :
    (atIndexTwo 8#32 [1#32] []).frames = [] ∧
    ((atIndexTwo 8#32 [1#32, 2#32] [⟨1, 3#32⟩]).frames = [⟨1, 3#32⟩] ∧
      1 < (atIndexTwo 8#32 [1#32, 2#32] [⟨1, 3#32⟩]).stack.length) ∧
    ((atIndexTwo 8#32 [1#32] [⟨1, 3#32⟩]).frames = [⟨1, 3#32⟩] ∧
      (atIndexTwo 8#32 [1#32] [⟨1, 3#32⟩]).stack.length ≤ 1) := by decide

theorem witness_CallThenReturnRestoresTheStack :
    AtInstr (atIndexTwo 7#32 [9#32, 5#32] []) .call ∧ (atIndexTwo 7#32 [9#32, 5#32] []).stack = [5#32, 9#32] ∧
    (atIndexTwo 7#32 [9#32, 5#32] []).params.frameCap ≠ some (atIndexTwo 7#32 [9#32, 5#32] []).frames.length ∧
    FitsBoundWidth (atIndexTwo 7#32 [9#32, 5#32] []).params [9#32].length ∧
    (atIndexTwo 7#32 [9#32, 5#32] []).prog[(5#32 : Word).toNat]? = some 8#32 ∧
    decode (atIndexTwo 7#32 [9#32, 5#32] []).params.opmap 8#32 = some .ret :=
  ⟨⟨rfl, _, rfl, rfl⟩, rfl, by decide, by decide, rfl, rfl⟩

theorem witness_AddSubtractMultiplyWrapModuloTwoToTheThirtyTwo :
    (atWord 10#32 [9#32]).stack.length < 2 ∧
    (atWord 10#32 [0xFFFFFFFF#32, 1#32]).stack = [1#32, 0xFFFFFFFF#32] := by decide

theorem witness_DivideAndModuloAreUnsignedAndFaultOnZero :
    (atWord 13#32 [0#32]).stack.length < 2 ∧ (atWord 13#32 [0#32, 0#32]).stack = [0#32, 0#32] ∧
    ((atWord 13#32 [7#32, 1#32]).stack = [1#32, 7#32] ∧ (1#32 : Word) ≠ 0#32) := by decide

theorem witness_FloatInstructionsReplaceTheirOperands :
    (Instr.addFloat, fadd) ∈ [(Instr.addFloat, fadd)] ∧ (atWord 15#32 [9#32]).stack.length < 2 ∧
    (atWord 15#32 [9#32, 8#32]).stack = [8#32, 9#32] := ⟨List.mem_cons_self, by decide, by decide⟩

/-- 1.0 and 1.0: sum and product not zero, difference zero; 0.0 and 1.0: product and dividend zero. -/
theorem witness_FloatSumAndDifferenceAreCorrectlyRounded :
    IsFinite 0x3F800000#32 ∧ f32 0x3F800000#32 + f32 0x3F800000#32 ≠ 0 ∧ f32 0x3F800000#32 - f32 0x3F800000#32 = 0 ∧
    IsFinite 0x80000000#32 ∧ f32 0x80000000#32 + f32 0x80000000#32 = 0 ∧
    f32 0x3F800000#32 - f32 0x80000000#32 ≠ 0 := by decide +kernel

theorem witness_FloatProductAndQuotientAreCorrectlyRounded :
    IsFinite 0x3F800000#32 ∧ f32 0x3F800000#32 * f32 0x3F800000#32 ≠ 0 ∧ f32 0x3F800000#32 ≠ 0 ∧
    IsFinite 0x80000000#32 ∧ f32 0x80000000#32 * f32 0x3F800000#32 = 0 ∧ f32 0x80000000#32 = 0 := by decide +kernel

theorem witness_FloatInfinityResults :
    IsInfinite 0x7F800000#32 ∧ isNegative 0x7F800000#32 = false ∧ IsInfinite 0xFF800000#32 ∧
    isNegative 0xFF800000#32 = true ∧ IsFinite 0x7F7FFFFF#32 ∧ ¬ IsNaN 0x3F800000#32 ∧ ¬ IsZero 0x3F800000#32 ∧
    IsZero 0x80000000#32 := by decide

theorem witness_FloatResultIsNaNExactlyWhenListed :
    IsNaN 0x7F800001#32 ∧ IsNaN 0xFFFFFFFF#32 ∧ IsInfinite 0x7F800000#32 ∧ IsZero 0x00000000#32 := by decide

theorem witness_FloatRemainderIsExactTruncatedDivision :
    IsFinite 0x40B00000#32 ∧ (IsFinite 0x00000001#32 ∧ f32 0x00000001#32 ≠ 0) ∧ IsInfinite 0x7F800000#32 ∧
    (IsZero 0x80000000#32 ∧ ¬ IsNaN 0x3F800000#32 ∧ ¬ IsZero 0x3F800000#32) := by decide +kernel

theorem witness_FloatDifferenceIsTheSumWithTheSignInverted :
    ¬ IsNaN (fsub 0x3F800000#32 0x3F800000#32) := by decide

theorem witness_ResultIsTheTopOfTheStackOrZero :
    0 < (atWord 5#32 [7#32]).depth ∧ (atWord 5#32 []).depth = 0 := by decide

theorem witness_StatusAndCauseShowTheirNumbers : (atWord 2#32 []).Inv := inv_atWord_empty _

end Sys2Proof.Tests
end

section
/-! SUPPORT. The execute phase said once: every next state `exec` can answer, with the guard under which it does. -/

namespace Sys2Proof.Machine

/-- R87, R88: what an instruction can do in its execute phase: nothing for want of an input, its one fault, or its
effect. The stack instructions, Load and the arithmetic share one shape, `restack`. -/
inductive ExecEffect (i : Instr) (s : State) : State → Prop
  | noEffect (lacks : LacksItsInput i s) : ExecEffect i s s
  | fault (c : Cause) (cond : FaultCondition i s c) : ExecEffect i s (raiseFault c s)
  | panic (hi : i = .panic) : ExecEffect i s (enterPanic s)
  | push (v : Word) (hi : i = .loadConst0 ∨ i = .loadConst1) (room : s.params.stackCap ≠ some s.stack.length) :
      ExecEffect i s { s with stack := v :: s.stack }
  | restack (stack : List Word) (shorter : stack.length ≤ s.stack.length) : ExecEffect i s { s with stack := stack }
  | store (addr v : Word) (rest : List Word) (hi : i = .write) (operands : s.stack = v :: addr :: rest)
      (inRange : addr.toNat + 4 ≤ s.params.memSize) :
      ExecEffect i s { s with stack := rest, mem := s.mem.writeWord addr.toNat v }
  | jump (target : Word) (rest : List Word) (hi : i = .jump) (operands : s.stack = target :: rest) :
      ExecEffect i s { s with stack := rest, ip := target }
  | call (target : Word) (rest : List Word) (hi : i = .call) (operands : s.stack = target :: rest)
      (room : s.params.frameCap ≠ some s.frames.length) :
      ExecEffect i s { s with
        stack := rest
        frames := { bound := recordedBound s.params rest.length, resume := s.ip + 1#32 } :: s.frames
        ip := target }
  | ret (f : Frame) (outer : List Frame) (hi : i = .ret) (innermost : s.frames = f :: outer) :
      ExecEffect i s { s with stack := truncate f.bound s.stack, frames := outer, ip := f.resume }

section Effects
variable {i : Instr} {s t : State}

/-- R16: with too few operands an instruction answers the state it was given. -/
theorem exec_of_underflow (h : s.stack.length < operandsNeeded i) : exec i s = .next s := by
  cases i with
  | load | duplicate | pop | jump | call =>
    exact withTop_of_empty (List.length_eq_zero_iff.1 (Nat.lt_one_iff.1 h))
  | write | addInt | subtractInt | multiplyInt | divideInt | moduloInt
  | addFloat | subtractFloat | multiplyFloat | divideFloat | moduloFloat => exact withTopTwo_of_short h
  | loadConst0 | loadConst1 | ret | panic => exact absurd h (Nat.not_lt_zero _)

theorem pushLiteral_of_full {v : Word} (h : s.params.stackCap = some s.stack.length) :
    pushLiteral s v = .next (raiseFault .stackOverflow s) :=
  if_pos (atCapacity_iff.2 h)

theorem pushLiteral_of_room {v : Word} (h : s.params.stackCap ≠ some s.stack.length) :
    pushLiteral s v = .next { s with stack := v :: s.stack } :=
  if_neg (mt atCapacity_iff.1 h)

/-- R50, R51: a literal instruction is `pushLiteral` of some Word. -/
theorem exec_literal (hi : i = .loadConst0 ∨ i = .loadConst1) : ∃ v, ∀ s, exec i s = pushLiteral s v := by
  rcases hi with rfl | rfl
  · exact ⟨0x00000000#32, fun _ => rfl⟩
  · exact ⟨0x00000001#32, fun _ => rfl⟩

theorem execCall_of_full {v : Word} {rest : List Word} (hs : s.stack = v :: rest)
    (h : s.params.frameCap = some s.frames.length) : execCall s = .next (raiseFault .frameOverflow s) :=
  (withTop_of_cons hs).trans (congrArg _ (if_pos (atCapacity_iff.2 h)))

theorem execReturn_of_no_frame (h : s.frames = []) : execReturn s = .next s := by
  simp [execReturn, h]

theorem lacksItsInput_of_empty (hk : operandsNeeded i = 1) (h : s.stack = []) : LacksItsInput i s :=
  .inl (by simp [hk, h])

theorem lacksItsInput_of_short (hk : operandsNeeded i = 2) (h : s.stack.length < 2) : LacksItsInput i s :=
  .inl (hk ▸ h)

theorem ExecEffect.of_replaceTwo {op : Word → Word → Word} (hk : operandsNeeded i = 2)
    (h : replaceTwo s op = .next t) : ExecEffect i s t := by
  rcases replaceTwo_next h with ⟨hs, rfl⟩ | ⟨a, b, rest, hs, rfl⟩
  · exact .noEffect (lacksItsInput_of_short hk hs)
  · exact .restack _ (by simp [hs])

theorem ExecEffect.of_replaceTwoNonzero {op : Word → Word → Word} (hi : i = .divideInt ∨ i = .moduloInt)
    (h : replaceTwoNonzero s op = .next t) : ExecEffect i s t := by
  have hk : operandsNeeded i = 2 := by rcases hi with rfl | rfl <;> rfl
  rcases replaceTwoNonzero_next h with ⟨hs, rfl⟩ | ⟨a, rest, hs, rfl⟩ | ⟨a, b, rest, hs, -, rfl⟩
  · exact .noEffect (lacksItsInput_of_short hk hs)
  · exact .fault _ (by simp [FaultCondition, hi, hs])
  · exact .restack _ (by simp [hs])

theorem ExecEffect.of_pushLiteral {v : Word} (hi : i = .loadConst0 ∨ i = .loadConst1)
    (h : pushLiteral s v = .next t) : ExecEffect i s t := by
  rcases pushLiteral_next h with ⟨hc, rfl⟩ | ⟨hc, rfl⟩
  · exact .fault _ (.inl ⟨rfl, hi, hc⟩)
  · exact .push v hi hc

/-- The execute phase does nothing but what `ExecEffect` lists. -/
theorem exec_effect (h : exec i s = .next t) : ExecEffect i s t := by
  cases i with
  | load =>
    rcases execLoad_next h with ⟨hs, rfl⟩ | ⟨addr, rest, hs, ⟨hm, rfl⟩ | ⟨-, rfl⟩⟩
    · exact .noEffect (lacksItsInput_of_empty rfl hs)
    · exact .fault _ (by simp [FaultCondition, hs, hm])
    · exact .restack _ (by simp [hs])
  | write =>
    rcases execWrite_next h with ⟨hs, rfl⟩ | ⟨addr, v, rest, hs, ⟨hm, rfl⟩ | ⟨hm, rfl⟩⟩
    · exact .noEffect (lacksItsInput_of_short rfl hs)
    · exact .fault _ (by simp [FaultCondition, hs, hm])
    · exact .store addr v rest rfl hs hm
  | loadConst0 => exact .of_pushLiteral (.inl rfl) h
  | loadConst1 => exact .of_pushLiteral (.inr rfl) h
  | duplicate =>
    rcases execDuplicate_next h with ⟨hs, rfl⟩ | ⟨n, rest, hs, rfl⟩
    · exact .noEffect (lacksItsInput_of_empty rfl hs)
    · exact .restack _ (by simp [hs])
  | pop =>
    rcases execPop_next h with ⟨hs, rfl⟩ | ⟨v, rest, hs, rfl⟩
    · exact .noEffect (lacksItsInput_of_empty rfl hs)
    · exact .restack _ (by simp [hs])
  | jump =>
    rcases execJump_next h with ⟨hs, rfl⟩ | ⟨v, rest, hs, rfl⟩
    · exact .noEffect (lacksItsInput_of_empty rfl hs)
    · exact .jump v rest rfl hs
  | call =>
    rcases execCall_next h with ⟨hs, rfl⟩ | ⟨v, rest, hs, ⟨hc, rfl⟩ | ⟨hc, rfl⟩⟩
    · exact .noEffect (lacksItsInput_of_empty rfl hs)
    · exact .fault _ (.inr (.inl ⟨rfl, rfl, hc⟩))
    · exact .call v rest rfl hs hc
  | ret =>
    rcases execReturn_next h with ⟨hf, rfl⟩ | ⟨f, outer, hf, rfl⟩
    · exact .noEffect (.inr ⟨rfl, hf⟩)
    · exact .ret f outer rfl hf
  | panic => cases h; exact .panic rfl
  | divideInt => exact .of_replaceTwoNonzero (.inl rfl) h
  | moduloInt => exact .of_replaceTwoNonzero (.inr rfl) h
  | addInt | subtractInt | multiplyInt | addFloat | subtractFloat | multiplyFloat | divideFloat | moduloFloat =>
    exact .of_replaceTwo rfl h

theorem exec_params (h : exec i s = .next t) : t.params = s.params := by
  cases exec_effect h <;> rfl

/-- R13, way 1: the execute phase moves the pointer only to a popped target or to a resume point. -/
theorem exec_ip (h : exec i s = .next t) :
    t.ip = s.ip ∨ ((i = .jump ∨ i = .call) ∧ s.stack.head? = some t.ip) ∨
      (i = .ret ∧ s.frames.head?.map Frame.resume = some t.ip) := by
  cases exec_effect h with
  | noEffect | fault | panic | push | restack | store => exact .inl rfl
  | jump target rest hi hs => exact .inr (.inl ⟨.inl hi, by simp [hs]⟩)
  | call target rest hi hs => exact .inr (.inl ⟨.inr hi, by simp [hs]⟩)
  | ret f outer hi hf => exact .inr (.inr ⟨hi, by simp [hf]⟩)

/-- R17: only a literal makes the stack deeper, by one entry, and only where there is room. -/
theorem exec_depth (h : exec i s = .next t) :
    t.stack.length ≤ s.stack.length ∨
      ((i = .loadConst0 ∨ i = .loadConst1) ∧ s.params.stackCap ≠ some s.stack.length ∧
        t.stack.length = s.stack.length + 1) := by
  cases exec_effect h with
  | noEffect | fault | panic => exact .inl le_rfl
  | push v hi room => exact .inr ⟨hi, room, rfl⟩
  | restack stack shorter => exact .inl shorter
  | store addr v rest hi hs => exact .inl (by simp only [hs, List.length_cons]; omega)
  | jump target rest hi hs | call target rest hi hs => exact .inl (by simp [hs])
  | ret f outer => exact .inl (by simp [truncate_length])

/-- R20: only a Call makes the frame stack deeper, by one frame, and only where there is room. -/
theorem exec_frame_depth (h : exec i s = .next t) :
    t.frames.length ≤ s.frames.length ∨
      (s.params.frameCap ≠ some s.frames.length ∧ t.frames.length = s.frames.length + 1) := by
  cases exec_effect h with
  | noEffect | fault | panic | push | restack | store | jump => exact .inl le_rfl
  | call target rest hi hs room => exact .inr ⟨room, rfl⟩
  | ret f outer hi hf => exact .inl (by simp [hf])

end Effects

/-- A stack that grows only by one entry, and only below its capacity, stays within it. -/
theorem within_of_grows_with_room {n m : Nat} {cap : Option Nat} (h : m ≤ n ∨ (cap ≠ some n ∧ m = n + 1))
    (hw : Within n cap) : Within m cap := by
  intro c hc
  have hn : n ≤ c := hw c hc
  rcases h with hle | ⟨room, rfl⟩
  · omega
  · have : n ≠ c := fun heq => room (heq ▸ hc)
    omega

end Sys2Proof.Machine
end

section
/-! SUPPORT. The step at an instruction, and what a step inherits from the execute phase. -/

namespace Sys2Proof.Machine

section Steps
variable {i : Instr} {s t u : State}

/-- R74: the step at an instruction is its execute phase followed by the advance. -/
theorem step_of_atInstr (hi : AtInstr s i) (hu : exec i s = .next u) : step s = .next (advance s.ip u) := by
  obtain ⟨hr, w, hf, hd⟩ := hi
  exact step_of_exec hr hf hd hu

/-- R77: an execute phase that keeps the pointer and the status is followed by the advance. -/
theorem completesAndAdvances_of_exec (hu : exec i s = .next u) (hst : u.status = s.status) (hip : u.ip = s.ip) :
    CompletesAndAdvances i s u := by
  refine ⟨hu, fun hi => ?_⟩
  rw [step_of_atInstr hi hu, ← hip, advance_of_unmoved u (hst.trans hi.1)]

/-- R77: an execute phase that halts the core is the whole step. -/
theorem completesInPlace_of_exec (hu : exec i s = .next u) (hh : u.status ≠ .run) : CompletesInPlace i s u := by
  refine ⟨hu, fun hi => ?_⟩
  rw [step_of_atInstr hi hu, advance_of_halted _ u hh]

/-- R74: a step that executes no instruction changes the pointer and the status at most; any other is the execute
phase and the advance. -/
theorem step_executes_or_keeps (h : step s = .next t) :
    t = { s with ip := t.ip, status := t.status } ∨ ∃ i u, AtInstr s i ∧ exec i s = .next u ∧ t = advance s.ip u := by
  rcases step_next h with ⟨-, rfl⟩ | ⟨-, -, rfl⟩ | ⟨-, w, -, -, rfl⟩ | ⟨hr, w, i, u, hf, hd, hu, rfl⟩
  · exact .inl rfl
  · exact .inl rfl
  · exact .inl rfl
  · exact .inr ⟨i, u, ⟨hr, w, hf, hd⟩, hu, rfl⟩

/-- What the execute phase keeps and the pointer and the status have no part in, every step keeps. -/
theorem step_keeps {P : State → Prop} (hP : ∀ r ip st, P r → P { r with ip := ip, status := st })
    (hexec : ∀ {i u}, exec i s = .next u → P s → P u) (h : step s = .next t) (hs : P s) : P t := by
  rcases step_executes_or_keeps h with ht | ⟨i, u, -, hu, rfl⟩
  · rw [ht]; exact hP s _ _ hs
  · rw [advance_eq]; exact hP u _ u.status (hexec hu hs)

/-- R77: the pointer after the advance. -/
theorem advance_ip_cases (ip : Word) (r : State) :
    (advance ip r).ip = r.ip ∨ (r.ip = ip ∧ (advance ip r).ip = ip + 1#32) := by
  rw [advance_ip]
  split
  · rename_i hc; exact .inr ⟨hc.2, by rw [hc.2]⟩
  · exact .inl rfl

/-- R6, R13: at an index inside a program of the length allowed the advance does not wrap. -/
theorem advanced_toNat (hp : programWellFormed s.prog = true) {w : Word} (hf : fetch s = some w) :
    s.ip.toNat < s.prog.length ∧ (s.ip + 1#32).toNat = s.ip.toNat + 1 := by
  have hlen : s.prog.length < 2 ^ 32 := by simpa [programWellFormed] using hp
  have hin : s.ip.toNat < s.prog.length := (List.getElem?_eq_some_iff.1 hf).1
  exact ⟨hin, by rw [BitVec.toNat_add, BitVec.toNat_ofNat]; omega⟩

/-- R13: where the pointer is after a step. -/
theorem step_ip (hp : programWellFormed s.prog = true) (h : step s = .next t) :
    t.ip = s.ip ∨ (s.ip.toNat < s.prog.length ∧ t.ip.toNat = s.ip.toNat + 1) ∨
      ((AtInstr s .jump ∨ AtInstr s .call) ∧ s.stack.head? = some t.ip) ∨
      (AtInstr s .ret ∧ s.frames.head?.map Frame.resume = some t.ip) := by
  rcases step_next h with ⟨-, rfl⟩ | ⟨-, -, rfl⟩ | ⟨-, w, hf, -, rfl⟩ | ⟨hr, w, i, u, hf, hd, hu, rfl⟩
  · exact .inl rfl
  · exact .inl rfl
  · exact .inr (.inl (advanced_toNat hp hf))
  · have hi : AtInstr s i := ⟨hr, w, hf, hd⟩
    rcases advance_ip_cases s.ip u with hip | ⟨-, hip⟩ <;> rw [hip]
    · rcases exec_ip hu with hkeep | ⟨rfl | rfl, htop⟩ | ⟨rfl, hres⟩
      · exact .inl hkeep
      · exact .inr (.inr (.inl ⟨.inl hi, htop⟩))
      · exact .inr (.inr (.inl ⟨.inr hi, htop⟩))
      · exact .inr (.inr (.inr ⟨hi, hres⟩))
    · exact .inr (.inl (advanced_toNat hp hf))

end Steps

end Sys2Proof.Machine
end

section
/-! The statements about the architectural state (spec/10_state.md). -/

namespace Sys2Proof.Machine

/-- Settles O13: every field of the reset state is the value R27 gives it. -/
theorem resetPutsEveryPieceOfStateAtItsValue : Obligations.ResetPutsEveryPieceOfStateAtItsValue := by
  unfold Obligations.ResetPutsEveryPieceOfStateAtItsValue
  refine ⟨fun p prog => ⟨resetWith_ip p prog, resetWith_stack p prog, resetWith_frames p prog, fun a => ?_,
    resetWith_status p prog, resetWith_cause p prog⟩, fun s => rfl⟩
  rw [resetWith_mem, readByte_nil]

/-- Settles O9, from where the execute phase and the step leave the pointer. -/
theorem thePointerChangesInThreeWays : Obligations.ThePointerChangesInThreeWays := by
  unfold Obligations.ThePointerChangesInThreeWays
  refine ⟨fun i s t h hj hc hr => ?_, fun s t => step_ip, fun s => resetWith_ip _ _⟩
  rcases exec_ip h with hkeep | ⟨hi, -⟩ | ⟨hi, -⟩
  · exact hkeep
  · exact absurd hi (by simp [hj, hc])
  · exact absurd hi hr

/-- Settles O17: the table of `k`, and `exec_of_underflow`. -/
theorem underflowIsAllOrNothing : Obligations.UnderflowIsAllOrNothing := by
  unfold Obligations.UnderflowIsAllOrNothing
  exact ⟨by decide, by decide, by decide,
    fun i s h => completesAndAdvances_of_exec (exec_of_underflow h) rfl rfl⟩

/-- Settles O25: the growth of the stack in `exec_depth`, and the two outcomes of `pushLiteral`. -/
theorem onlyTheLiteralsCanOverflowTheStack : Obligations.OnlyTheLiteralsCanOverflowTheStack := by
  unfold Obligations.OnlyTheLiteralsCanOverflowTheStack
  refine ⟨fun i s t h h0 h1 => ?_, fun i s hi hfull => ?_, fun i s hi hcap => ?_, fun s t h => ?_⟩
  · rcases exec_depth h with hle | ⟨hi, -⟩
    · exact hle
    · exact absurd hi (by simp [h0, h1])
  · obtain ⟨v, hv⟩ := exec_literal hi
    exact completesInPlace_of_exec ((hv s).trans (pushLiteral_of_full hfull)) (by simp)
  · obtain ⟨v, hv⟩ := exec_literal hi
    exact ⟨_, (hv s).trans (pushLiteral_of_room (by simp [hcap])), rfl, rfl⟩
  · refine step_keeps (P := fun r => Within r.stack.length r.params.stackCap) (fun _ _ _ hr => hr) ?_ h
    intro i u hu hw
    rw [exec_params hu]
    exact within_of_grows_with_room ((exec_depth hu).imp_right And.right) hw

/-- Settles O26: the two edges of the frame stack, and its growth in `exec_frame_depth`. -/
theorem theFrameStackHoldsAtMostItsCapacity : Obligations.TheFrameStackHoldsAtMostItsCapacity := by
  unfold Obligations.TheFrameStackHoldsAtMostItsCapacity
  refine ⟨fun s v rest hs hfull => ?_, fun s hf => ?_, fun s t h => ?_⟩
  · exact completesInPlace_of_exec (execCall_of_full hs hfull) (by simp)
  · exact completesAndAdvances_of_exec (execReturn_of_no_frame hf) rfl rfl
  · refine step_keeps (P := fun r => Within r.frames.length r.params.frameCap) (fun _ _ _ hr => hr) ?_ h
    intro i u hu hw
    rw [exec_params hu]
    exact within_of_grows_with_room (exec_frame_depth hu) hw

end Sys2Proof.Machine
end

section
/-! SUPPORT. Load and Write when their operands are present, by whether the address lies in Memory (R34). -/

namespace Sys2Proof.Machine

section MemoryAccess
variable {s : State} {addr v : Word} {rest : List Word}

theorem inMemory_of_beyond (h : s.params.memSize < addr.toNat + 4) : ¬ inMemory s.params addr = true :=
  mt inMemory_iff.1 (Nat.not_le_of_gt h)

/-- R48: an address out of range is `MEM_RANGE`, and the address stays on the stack. -/
theorem execLoad_of_beyond (hs : s.stack = addr :: rest) (h : s.params.memSize < addr.toNat + 4) :
    execLoad s = .next (raiseFault .memRange s) :=
  (withTop_of_cons hs).trans (congrArg _ (if_neg (inMemory_of_beyond h)))

theorem execLoad_of_inRange (hs : s.stack = addr :: rest) (h : addr.toNat + 4 ≤ s.params.memSize) :
    execLoad s = .next { s with stack := s.mem.readWord addr.toNat :: rest } :=
  (withTop_of_cons hs).trans (congrArg _ (if_pos (inMemory_iff.2 h)))

/-- R49: an address out of range is `MEM_RANGE`, and both operands stay on the stack. -/
theorem execWrite_of_beyond (hs : s.stack = v :: addr :: rest) (h : s.params.memSize < addr.toNat + 4) :
    execWrite s = .next (raiseFault .memRange s) :=
  (withTopTwo_of_cons hs).trans (congrArg _ (if_neg (inMemory_of_beyond h)))

theorem execWrite_of_inRange (hs : s.stack = v :: addr :: rest) (h : addr.toNat + 4 ≤ s.params.memSize) :
    execWrite s = .next { s with stack := rest, mem := s.mem.writeWord addr.toNat v } :=
  (withTopTwo_of_cons hs).trans (congrArg _ (if_pos (inMemory_iff.2 h)))

end MemoryAccess

/-- R32: byte `k` of the stored Word is at `addr + k`. -/
theorem readByte_writeWord_covered (m : Memory) (addr : Nat) (v : Word) {k : Nat} (hk : k < 4) :
    (m.writeWord addr v).readByte (addr + k) = wordByte v k := by
  rw [readByte_writeWord, if_pos (by omega), Nat.add_sub_cancel_left]

/-- R32: outside its four bytes a store leaves Memory as it was. -/
theorem readByte_writeWord_outside (m : Memory) (addr : Nat) (v : Word) {x : Nat} (hx : x < addr ∨ addr + 4 ≤ x) :
    (m.writeWord addr v).readByte x = m.readByte x := by
  rw [readByte_writeWord, if_neg (by omega)]

end Sys2Proof.Machine
end

section
/-! The statements about Memory and its two instructions (spec/20_memory.md, spec/40_memory_ops.md). -/

namespace Sys2Proof.Machine

/-- Settles O27: the three outcomes of `execLoad`, and the Word assembled from its bytes in `readWord_toNat`. -/
theorem loadReadsTheWordAtThePoppedAddress : Obligations.LoadReadsTheWordAtThePoppedAddress := by
  unfold Obligations.LoadReadsTheWordAtThePoppedAddress
  refine ⟨rfl, fun s hs => ?_, fun s addr rest hs hm => ?_, fun s addr rest hs hm => ?_⟩
  · exact completesAndAdvances_of_exec (withTop_of_empty hs) rfl rfl
  · exact completesInPlace_of_exec (execLoad_of_beyond hs hm) (by simp)
  · exact ⟨s.mem.readWord addr.toNat, readWord_toNat s.mem addr.toNat,
      completesAndAdvances_of_exec (execLoad_of_inRange hs hm) rfl rfl⟩

/-- Settles O28: the three outcomes of `execWrite`, and what a stored Word covers and leaves alone. -/
theorem writeStoresTheValueAtTheAddressBeneath : Obligations.WriteStoresTheValueAtTheAddressBeneath := by
  unfold Obligations.WriteStoresTheValueAtTheAddressBeneath
  refine ⟨rfl, fun s hs => ?_, fun s addr v rest hs hm => ?_, fun s addr v rest hs hm => ?_⟩
  · exact completesAndAdvances_of_exec (withTopTwo_of_short hs) rfl rfl
  · exact completesInPlace_of_exec (execWrite_of_beyond hs hm) (by simp)
  · refine ⟨s.mem.writeWord addr.toNat v, completesAndAdvances_of_exec (execWrite_of_inRange hs hm) rfl rfl,
      fun k hk => ?_, fun a ha => ?_⟩
    · rw [readByte_writeWord_covered _ _ _ hk, wordByte_toNat]
    · exact readByte_writeWord_outside _ _ _ ha

end Sys2Proof.Machine
end

section
/-! SUPPORT. The decoder as the inverse of the opcode map (R43), and the Words that the default map gives (R42, R44). -/

namespace Sys2Proof

section Decoding
variable {m : OpMap} {w : Word} {i : Instr}

/-- D1: what the check on an opcode map asks for: no two instructions share a Word. -/
theorem word_injective (hm : m.wellFormed = true) : Function.Injective m.word := fun i j h =>
  List.inj_on_of_nodup_map (of_decide_eq_true hm) i.mem_all j.mem_all h

/-- R43, R44: under any map the Words that do not decode are those of no instruction. -/
theorem decode_eq_none_iff : decode m w = none ↔ ∀ i, encode m i ≠ w := by
  simp [decode, encode, Instr.mem_all]

/-- Where two instructions shared a Word, only the first of them would decode back. -/
theorem decode_encode (hm : m.wellFormed = true) (i : Instr) : decode m (encode m i) = some i := by
  cases hd : decode m (encode m i) with
  | none => exact absurd rfl (decode_eq_none_iff.1 hd i)
  | some j => rw [word_injective hm (word_of_decode hd)]

theorem decode_eq_some_iff (hm : m.wellFormed = true) : decode m w = some i ↔ encode m i = w :=
  ⟨word_of_decode, fun h => h ▸ decode_encode hm i⟩

end Decoding

/-- R42: the instructions stand in `Instr.all` at their numbers. -/
theorem encode_default_all (n : Fin 20) : encode defaultOpMap Instr.all[n] = BitVec.ofNat 32 n := by
  revert n; decide

theorem encode_default_lt (i : Instr) : (encode defaultOpMap i).toNat < 20 := by
  cases i <;> decide

/-- R44: the default map uses the numbers 0 to 19, all of them and no other. -/
theorem decode_default_eq_none_iff (w : Word) : decode defaultOpMap w = none ↔ 20 ≤ w.toNat := by
  rw [decode_eq_none_iff]
  constructor
  · intro h
    by_contra hlt
    refine h Instr.all[(⟨w.toNat, by omega⟩ : Fin 20)] ?_
    rw [encode_default_all, BitVec.ofNat_toNat, BitVec.setWidth_eq]
  · rintro h i rfl
    have := encode_default_lt i
    omega

end Sys2Proof
end

section
/-! SUPPORT. The exact depth after an instruction that has its operands (R42). -/

namespace Sys2Proof.Machine

/-- R42: how many entries an instruction with its operands puts back, so that "net" is this number less `k`. Return,
whose change of depth is its frame's, has no number of its own: its 0 is not used. -/
def resultsPushed : Instr → Nat
  | .load | .loadConst0 | .loadConst1 | .duplicate
  | .addInt | .subtractInt | .multiplyInt | .divideInt | .moduloInt
  | .addFloat | .subtractFloat | .multiplyFloat | .divideFloat | .moduloFloat => 1
  | .write | .pop | .jump | .call | .ret | .panic => 0

/-- The answer `r` to the state `s` is a next state and, unless that is a fault, `k` entries have left the stack and
`n` have come to it. -/
def TakesAndPushes (s : State) (r : Result) (k n : Nat) : Prop :=
  ∃ t, r = .next t ∧ (t.status ≠ .fault → t.stack.length + k = s.stack.length + n)

section Depths
variable {i : Instr} {s : State} {n : Nat}

theorem withTop_takesAndPushes {effect : Word → List Word → State} (hk : 1 ≤ s.stack.length)
    (he : ∀ v rest, (effect v rest).status ≠ .fault → (effect v rest).stack.length = rest.length + n) :
    TakesAndPushes s (withTop s effect) 1 n := by
  obtain ⟨v, rest, hs⟩ := List.exists_cons_of_length_pos hk
  refine ⟨_, withTop_of_cons hs, fun hf => ?_⟩
  rw [he v rest hf, hs, List.length_cons]
  omega

theorem withTopTwo_takesAndPushes {effect : Word → Word → List Word → State} (hk : 2 ≤ s.stack.length)
    (he : ∀ a b rest, (effect a b rest).status ≠ .fault → (effect a b rest).stack.length = rest.length + n) :
    TakesAndPushes s (withTopTwo s effect) 2 n := by
  match hs : s.stack, hk with
  | b :: a :: rest, _ =>
    refine ⟨_, withTopTwo_of_cons hs, fun hf => ?_⟩
    rw [he a b rest hf, hs, List.length_cons, List.length_cons]
    omega

theorem pushLiteral_takesAndPushes (v : Word) : TakesAndPushes s (pushLiteral s v) 0 1 := by
  by_cases hc : s.params.stackCap = some s.stack.length
  · exact ⟨_, pushLiteral_of_full hc, fun hf => absurd rfl hf⟩
  · exact ⟨_, pushLiteral_of_room hc, fun _ => rfl⟩

/-- The depth after an effect with a fault condition: a branch that is the fault has nothing to show. -/
theorem length_of_ite {p : Prop} [Decidable p] {t u : State} (ht : t.status ≠ .fault → t.stack.length = n)
    (hu : u.status ≠ .fault → u.stack.length = n) (h : (if p then t else u).status ≠ .fault) :
    (if p then t else u).stack.length = n := by
  split_ifs at h ⊢
  · exact ht h
  · exact hu h

/-- R42: an instruction other than Return that has its operands takes all of them and pushes its results. -/
theorem exec_takesAndPushes (hi : i ≠ .ret) (hk : operandsNeeded i ≤ s.stack.length) :
    TakesAndPushes s (exec i s) (operandsNeeded i) (resultsPushed i) := by
  cases i with
  | load => exact withTop_takesAndPushes hk fun _ _ => length_of_ite (fun _ => rfl) (absurd rfl)
  | write => exact withTopTwo_takesAndPushes hk fun _ _ _ => length_of_ite (fun _ => rfl) (absurd rfl)
  | loadConst0 | loadConst1 => exact pushLiteral_takesAndPushes _
  | duplicate | pop | jump => exact withTop_takesAndPushes hk fun _ _ _ => rfl
  | call => exact withTop_takesAndPushes hk fun _ _ => length_of_ite (absurd rfl) fun _ => rfl
  | ret => exact absurd rfl hi
  | panic => exact ⟨_, rfl, fun _ => rfl⟩
  | divideInt | moduloInt =>
    exact withTopTwo_takesAndPushes hk fun _ _ _ => length_of_ite (absurd rfl) fun _ => rfl
  | addInt | subtractInt | multiplyInt | addFloat | subtractFloat | multiplyFloat | divideFloat | moduloFloat =>
    exact withTopTwo_takesAndPushes hk fun _ _ _ _ => rfl

theorem execReturn_of_frame {f : Frame} {outer : List Frame} (h : s.frames = f :: outer) :
    execReturn s = .next { s with stack := truncate f.bound s.stack, frames := outer, ip := f.resume } := by
  simp [execReturn, h]

/-- R56: Return always answers a next state with the status as it was, and never a deeper stack. -/
theorem exec_ret_keeps_status (s : State) :
    ∃ t, exec .ret s = .next t ∧ t.status = s.status ∧ t.stack.length ≤ s.stack.length := by
  cases hf : s.frames with
  | nil => exact ⟨s, execReturn_of_no_frame hf, rfl, le_rfl⟩
  | cons f outer =>
    exact ⟨_, execReturn_of_frame hf, rfl, (truncate_length f.bound s.stack).trans_le (min_le_right _ _)⟩

end Depths

end Sys2Proof.Machine
end

section
/-! SUPPORT. The step at a Word that is no instruction (R44, R78). -/

namespace Sys2Proof.Machine

theorem step_of_atNoInstruction {s : State} (h : AtNoInstruction s) :
    step s = .next { s with ip := s.ip + 1#32 } := by
  obtain ⟨hr, w, hf, hd⟩ := h
  rw [step_of_running hr]
  simp [runCycle, fetch, hf, hd, advance_of_unmoved s hr]

end Sys2Proof.Machine
end

section
/-! The statements about the encoding (spec/30_encoding.md). -/

namespace Sys2Proof.Machine

/-- Settles O1: the decoder is the inverse of an injective opcode map, and answers `none` outside its image. -/
theorem decodeInvertsTheOpcodeMap : Obligations.DecodeInvertsTheOpcodeMap := by
  unfold Obligations.DecodeInvertsTheOpcodeMap
  exact fun m hm => ⟨fun i w => decode_eq_some_iff hm, fun w => decode_eq_none_iff⟩

/-- R42: what a row of the table says, in the model's terms. -/
theorem opcodeRows_spec : ∀ row ∈ opcodeRows,
    row.1 ≠ .ret ∧ encode defaultOpMap row.1 = BitVec.ofNat 32 row.2.1 ∧ row.2.2.1 = operandsNeeded row.1 ∧
      row.2.2.2 = (resultsPushed row.1 : Int) - operandsNeeded row.1 := by
  decide

theorem eq_ret_or_mem_opcodeRows (i : Instr) : i = .ret ∨ ∃ row ∈ opcodeRows, row.1 = i := by
  cases i <;> decide

/-- Settles O2: the rows as `opcodeRows_spec` reads them, with the two outcomes of an instruction, by whether it has
its operands. -/
theorem opcodeTableNumbersOperandsAndDepthChange : Obligations.OpcodeTableNumbersOperandsAndDepthChange := by
  unfold Obligations.OpcodeTableNumbersOperandsAndDepthChange
  refine ⟨eq_ret_or_mem_opcodeRows, rfl, fun s hr => hr ▸ exec_ret_keeps_status s, fun row hrow => ?_⟩
  obtain ⟨hret, hnumber, hk, hnet⟩ := opcodeRows_spec row hrow
  rw [hk, hnet]
  refine ⟨hnumber, fun s _ => ⟨exec_of_underflow, fun hdepth => ?_⟩⟩
  obtain ⟨t, ht, hlen⟩ := exec_takesAndPushes hret hdepth
  exact ⟨t, ht, fun hf => by have := hlen hf; omega⟩

/-- Settles O3: the numbers of the default map are those below 20, and the step at any other Word is the advance. -/
theorem wordsThatAreNoInstructionAreNoOps : Obligations.WordsThatAreNoInstructionAreNoOps := by
  unfold Obligations.WordsThatAreNoInstructionAreNoOps
  exact ⟨decode_default_eq_none_iff, fun s => step_of_atNoInstruction⟩

end Sys2Proof.Machine
end

section
/-! The statement about the stack literals (spec/41_stack_literals.md). -/

namespace Sys2Proof.Machine

/-- R50, R51: the literal belongs to the instruction. -/
theorem exec_eq_pushLiteral {i : Instr} {v : Word} (h : (i = .loadConst0 ∧ v = 0#32) ∨ (i = .loadConst1 ∧ v = 1#32))
    (s : State) : exec i s = pushLiteral s v := by
  rcases h with ⟨rfl, rfl⟩ | ⟨rfl, rfl⟩ <;> rfl

/-- Settles O30: the two outcomes of `pushLiteral`, the fault with no advance and the push with one. -/
theorem loadConstPushesItsLiteral : Obligations.LoadConstPushesItsLiteral := by
  unfold Obligations.LoadConstPushesItsLiteral
  refine ⟨rfl, rfl, fun i v hiv => ⟨fun s hfull => ?_, fun s hroom => ?_⟩⟩
  · have hu : exec i s = .next (raiseFault .stackOverflow s) :=
      (exec_eq_pushLiteral hiv s).trans (pushLiteral_of_full hfull)
    exact completesInPlace_of_exec hu (by simp)
  · have hu : exec i s = .next { s with stack := v :: s.stack } :=
      (exec_eq_pushLiteral hiv s).trans (pushLiteral_of_room hroom)
    exact completesAndAdvances_of_exec hu rfl rfl

end Sys2Proof.Machine
end

section
/-! The statements about the stack shape instructions (spec/42_stack_shape.md). -/

namespace Sys2Proof.Machine

/-- R52: the entry `n` places below the top is `S[d-1-n]` of the stack written bottom first. -/
theorem reverse_getElem?_eq_entryBelowTop {stack : List Word} {n : Word} (h : n.toNat < stack.length) :
    stack.reverse[stack.length - 1 - n.toNat]? = some (entryBelowTop stack n) := by
  have hindex : stack.length - 1 - n.toNat + n.toNat + 1 = stack.length := by omega
  rw [List.getElem?_reverse' hindex, entryBelowTop, List.getElem?_eq_getElem h, Option.getD_some]

/-- R52 (D6): a read below the bottom of the stack is 0. -/
theorem entryBelowTop_of_length_le {stack : List Word} {n : Word} (h : stack.length ≤ n.toNat) :
    entryBelowTop stack n = 0#32 := by
  rw [entryBelowTop, List.getElem?_eq_none h, Option.getD_none]

/-- Settles O31: the two outcomes of `withTop`, and the pushed `entryBelowTop` read by whether the entry exists. -/
theorem duplicatePushesTheEntryNBelowTheNewTop : Obligations.DuplicatePushesTheEntryNBelowTheNewTop := by
  unfold Obligations.DuplicatePushesTheEntryNBelowTheNewTop
  refine ⟨rfl, fun s hs => ?_, fun s n rest hs => ?_⟩
  · exact completesAndAdvances_of_exec (withTop_of_empty hs) rfl rfl
  · have hu : exec .duplicate s = .next { s with stack := entryBelowTop rest n :: rest } := withTop_of_cons hs
    exact ⟨entryBelowTop rest n, reverse_getElem?_eq_entryBelowTop, entryBelowTop_of_length_le,
      completesAndAdvances_of_exec hu rfl rfl⟩

/-- Settles O32: the two outcomes of `withTop`, neither of which moves the pointer or halts the core. -/
theorem popDiscardsTheTop : Obligations.PopDiscardsTheTop := by
  unfold Obligations.PopDiscardsTheTop
  refine ⟨rfl, fun s hs => ?_, fun s v rest hs => ?_⟩
  · exact completesAndAdvances_of_exec (withTop_of_empty hs) rfl rfl
  · have hu : exec .pop s = .next { s with stack := rest } := withTop_of_cons hs
    exact completesAndAdvances_of_exec hu rfl rfl

end Sys2Proof.Machine
end

section
/-! SUPPORT. The step at a transfer (R77), and the step past the end of the program (R75). -/

namespace Sys2Proof.Machine

section Transfers
variable {i : Instr} {s u : State}

/-- R77: an execute phase that keeps the status is followed by the advance where its target is its own index, and by
nothing elsewhere. -/
theorem completesAndTransfers_of_exec (hu : exec i s = .next u) (hst : u.status = s.status) :
    CompletesAndTransfers i s u := by
  refine ⟨hu, fun hi => ?_⟩
  rw [step_of_atInstr hi hu]
  by_cases hip : u.ip = s.ip
  · rw [if_pos hip, ← hip, advance_of_unmoved u (hst.trans hi.1)]
  · rw [if_neg hip, advance_of_moved _ u hip]

/-- R75: a core that runs with its pointer past the program ends. -/
theorem step_of_past_end (hr : s.status = .run) (hpast : s.prog.length ≤ s.ip.toNat) :
    step s = .next (enterEnd s) := by
  rw [step_of_running hr, runCycle, fetch_eq_none.2 hpast]

/-- R75, R77: a target past the program is never the transfer's own index, so the step leaves the pointer there, and
the next one ends the run. -/
theorem step_ends_after_transfer_past_end (hi : AtInstr s i) (hu : exec i s = .next u) (hst : u.status = s.status)
    (hprog : u.prog = s.prog) (hpast : s.prog.length ≤ u.ip.toNat) :
    ∃ t, step s = .next t ∧ t.ip = u.ip ∧ t.status = .run ∧ step t = .next { t with status := .ended } := by
  have hr : u.status = .run := hst.trans hi.1
  have hin : s.ip.toNat < s.prog.length := by
    obtain ⟨-, w, hf, -⟩ := hi
    exact (List.getElem?_eq_some_iff.1 hf).1
  have hmoved : u.ip ≠ s.ip := fun h => absurd hpast (by rw [h]; exact Nat.not_le_of_gt hin)
  refine ⟨u, ?_, rfl, hr, step_of_past_end hr (hprog ▸ hpast)⟩
  rw [step_of_atInstr hi hu, advance_of_moved _ u hmoved]

end Transfers

/-- R55: with a target and room for its frame, Call pops the one and pushes the other. -/
theorem execCall_of_room {s : State} {v : Word} {rest : List Word} (hs : s.stack = v :: rest)
    (h : s.params.frameCap ≠ some s.frames.length) :
    execCall s = .next { s with
      stack := rest
      frames := { bound := recordedBound s.params rest.length, resume := s.ip + 1#32 } :: s.frames
      ip := v } :=
  (withTop_of_cons hs).trans (congrArg _ (if_neg (mt atCapacity_iff.1 h)))

end Sys2Proof.Machine
end

section
/-! The statements about Jump, Call and Panic (spec/43_control_transfer.md). -/

namespace Sys2Proof.Machine

/-- Settles O33: the two outcomes of `withTop`, the second of them a transfer. -/
theorem jumpSetsThePointerToThePoppedTarget : Obligations.JumpSetsThePointerToThePoppedTarget := by
  unfold Obligations.JumpSetsThePointerToThePoppedTarget
  have hjump : ∀ (s : State) v rest, s.stack = v :: rest → exec .jump s = .next { s with stack := rest, ip := v } :=
    fun _ _ _ => withTop_of_cons
  refine ⟨rfl, fun s hs => ?_, fun s v rest hs => ?_, fun s v rest hs hi hpast => ?_⟩
  · exact completesAndAdvances_of_exec (withTop_of_empty hs) rfl rfl
  · exact completesAndTransfers_of_exec (hjump s v rest hs) rfl
  · exact step_ends_after_transfer_past_end hi (hjump s v rest hs) rfl rfl hpast

/-- Settles O34: underflow, the full frame stack and the transfer, whose frame holds `recordedBound` of the depth
beneath the target. -/
theorem callPushesAFrameAndTransfers : Obligations.CallPushesAFrameAndTransfers := by
  unfold Obligations.CallPushesAFrameAndTransfers
  refine ⟨rfl, fun s hs => ?_, fun s v rest hs hfull => ?_, fun s v rest hs hroom => ?_,
    fun s v rest hs hroom hi hpast => ?_⟩
  · exact completesAndAdvances_of_exec (withTop_of_empty hs) rfl rfl
  · exact completesInPlace_of_exec (execCall_of_full hs hfull) (by simp)
  · have hdepth : s.stack.length - 1 = rest.length := by simp [hs]
    rw [hdepth]
    exact ⟨recordedBound s.params rest.length, recordedBound_of_fits, recordedBound_lt rest.length,
      completesAndTransfers_of_exec (execCall_of_room hs hroom) rfl⟩
  · exact step_ends_after_transfer_past_end hi (execCall_of_room hs hroom) rfl rfl hpast

/-- Settles O37: Panic only enters the halted status, in which the step is a fixed point. -/
theorem panicHaltsWithNoOtherChange : Obligations.PanicHaltsWithNoOtherChange := by
  unfold Obligations.PanicHaltsWithNoOtherChange
  refine ⟨rfl, fun s => ⟨?_, step_of_halted (by simp)⟩⟩
  have hu : exec .panic s = .next (enterPanic s) := rfl
  exact completesInPlace_of_exec hu (by simp)

end Sys2Proof.Machine
end

section
/-! SUPPORT. The shared forms of the two-operand instructions when both operands are present (R59, R63 to R65). -/

namespace Sys2Proof.Machine

section TwoOperands
variable {i : Instr} {s : State} {op : Word → Word → Word} {a b : Word} {rest : List Word}

/-- R16: an instruction of two operands that lacks one has no effect, and the pointer advances. -/
theorem completesAndAdvances_of_short (hk : operandsNeeded i = 2) (h : s.stack.length < 2) :
    CompletesAndAdvances i s s :=
  completesAndAdvances_of_exec (exec_of_underflow (hk ▸ h)) rfl rfl

/-- R59, R65: an instruction of the form `replaceTwo` takes its effect on the stack alone. -/
theorem completesAndAdvances_of_replaceTwo (hi : exec i s = replaceTwo s op) (hs : s.stack = b :: a :: rest) :
    CompletesAndAdvances i s { s with stack := op a b :: rest } :=
  completesAndAdvances_of_exec (hi.trans (withTopTwo_of_cons hs)) rfl rfl

/-- R63, R64: a zero divisor is `DIV_ZERO`, and both operands stay on the stack. -/
theorem replaceTwoNonzero_of_zero (hs : s.stack = 0#32 :: a :: rest) :
    replaceTwoNonzero s op = .next (raiseFault .divZero s) :=
  (withTopTwo_of_cons hs).trans (congrArg _ (if_pos rfl))

theorem replaceTwoNonzero_of_nonzero (hs : s.stack = b :: a :: rest) (hb : b ≠ 0#32) :
    replaceTwoNonzero s op = .next { s with stack := op a b :: rest } :=
  (withTopTwo_of_cons hs).trans (congrArg _ (if_neg hb))

/-- R63, R64: with a divisor other than 0 the form `replaceTwoNonzero` takes its effect on the stack alone. -/
theorem completesAndAdvances_of_replaceTwoNonzero (hi : exec i s = replaceTwoNonzero s op)
    (hs : s.stack = b :: a :: rest) (hb : b ≠ 0#32) :
    CompletesAndAdvances i s { s with stack := op a b :: rest } :=
  completesAndAdvances_of_exec (hi.trans (replaceTwoNonzero_of_nonzero hs hb)) rfl rfl

end TwoOperands

/-- R63, R64: the two division instructions are `replaceTwoNonzero` of some operation. -/
theorem exec_division {i : Instr} (hi : i = .divideInt ∨ i = .moduloInt) :
    ∃ op, ∀ s, exec i s = replaceTwoNonzero s op := by
  rcases hi with rfl | rfl
  · exact ⟨fun a b => a / b, fun _ => rfl⟩
  · exact ⟨fun a b => a % b, fun _ => rfl⟩

/-- R61: the difference of two Words is that of their numbers modulo `2^32`, also where the latter is negative. -/
theorem toNat_sub_eq_int_emod (a b : Word) : ((a - b).toNat : Int) = ((a.toNat : Int) - b.toNat) % 2 ^ 32 := by
  have hb : b.toNat < 2 ^ 32 := b.isLt
  rw [BitVec.toNat_sub]
  omega

end Sys2Proof.Machine
end

section
/-! The statements about integer arithmetic (spec/44_integer_arith.md). -/

namespace Sys2Proof.Machine

/-- Settles O39: the three instructions are `replaceTwo`, of the operation on Words that wraps as stated. -/
theorem addSubtractMultiplyWrapModuloTwoToTheThirtyTwo :
    Obligations.AddSubtractMultiplyWrapModuloTwoToTheThirtyTwo := by
  unfold Obligations.AddSubtractMultiplyWrapModuloTwoToTheThirtyTwo
  refine ⟨rfl, rfl, rfl, fun i s hi hshort => ?_, fun s a b rest hs => ⟨?_, ?_, ?_⟩⟩
  · have hk : operandsNeeded i = 2 := by rcases hi with rfl | rfl | rfl <;> rfl
    exact completesAndAdvances_of_short hk hshort
  · exact ⟨a + b, BitVec.toNat_add a b, completesAndAdvances_of_replaceTwo rfl hs⟩
  · exact ⟨a - b, toNat_sub_eq_int_emod a b, completesAndAdvances_of_replaceTwo rfl hs⟩
  · exact ⟨a * b, BitVec.toNat_mul a b, completesAndAdvances_of_replaceTwo rfl hs⟩

/-- Settles O40: the three outcomes of `replaceTwoNonzero`, and the division of Words as that of their numbers. -/
theorem divideAndModuloAreUnsignedAndFaultOnZero : Obligations.DivideAndModuloAreUnsignedAndFaultOnZero := by
  unfold Obligations.DivideAndModuloAreUnsignedAndFaultOnZero
  refine ⟨rfl, rfl, fun i s hi hshort => ?_, fun i s a rest hi hs => ?_, fun s a b rest hs hb => ?_⟩
  · have hk : operandsNeeded i = 2 := by rcases hi with rfl | rfl <;> rfl
    exact completesAndAdvances_of_short hk hshort
  · obtain ⟨op, hop⟩ := exec_division hi
    exact completesInPlace_of_exec ((hop s).trans (replaceTwoNonzero_of_zero hs)) (by simp)
  · have hpos : 0 < b.toNat := Nat.pos_of_ne_zero fun h => hb (BitVec.eq_of_toNat_eq h)
    refine ⟨a / b, a % b, BitVec.toNat_udiv, BitVec.toNat_umod, ?_, ?_,
      completesAndAdvances_of_replaceTwoNonzero rfl hs hb, completesAndAdvances_of_replaceTwoNonzero rfl hs hb⟩
    · rw [BitVec.toNat_udiv, BitVec.toNat_umod, Nat.div_add_mod']
    · rw [BitVec.toNat_umod]
      exact Nat.mod_lt _ hpos

end Sys2Proof.Machine
end

section
/-! SUPPORT. The execute phase is total (R74), what lacks an input has no effect (R77), and a fixed point of the step
is one of every run (R80). -/

namespace Sys2Proof.Machine

/-- A state that the step keeps, every run keeps. -/
theorem run_of_fixed_step {M : Host.Core} {s : M.State} (h : M.step s = .next s) (k : Nat) :
    M.run k s = .next s := by
  induction k with
  | zero => rfl
  | succ k ih => simp only [Host.Core.run, h, ih]

section Execute
variable {i : Instr} {s : State}

/-- R74: with its operands, without them, and for Return, an instruction answers a next state. -/
theorem exec_total (i : Instr) (s : State) : ∃ u, exec i s = .next u := by
  by_cases hret : i = .ret
  · obtain ⟨u, hu, -⟩ := exec_ret_keeps_status s
    exact ⟨u, hret ▸ hu⟩
  · rcases Nat.lt_or_ge s.stack.length (operandsNeeded i) with hshort | hdepth
    · exact ⟨s, exec_of_underflow hshort⟩
    · obtain ⟨u, hu, -⟩ := exec_takesAndPushes hret hdepth
      exact ⟨u, hu⟩

/-- R16, R56: without its operands, or for Return without a frame, an instruction has no effect. -/
theorem exec_of_lacksItsInput (h : LacksItsInput i s) : exec i s = .next s := by
  rcases h with hshort | ⟨rfl, hframes⟩
  · exact exec_of_underflow hshort
  · exact execReturn_of_no_frame hframes

/-- R77: where a step that is no transfer leaves the pointer. -/
theorem step_ip_of_no_transfer (hi : AtInstr s i) (hj : i ≠ .jump) (hc : i ≠ .call) (hr : i ≠ .ret) :
    ∃ t, step s = .next t ∧ t.ip = if t.status = .run then s.ip + 1#32 else s.ip := by
  obtain ⟨u, hu⟩ := exec_total i s
  obtain ⟨hkeep, -, -⟩ := thePointerChangesInThreeWays
  have hip : u.ip = s.ip := hkeep i s u hu hj hc hr
  refine ⟨advance s.ip u, step_of_atInstr hi hu, ?_⟩
  rw [advance_ip, advance_status, hip]
  simp only [and_true]

end Execute

/-- R83: the result output is what a Duplicate of index 0 would read. -/
theorem result_eq_entryBelowTop (s : State) : s.result = entryBelowTop s.stack 0#32 := by
  rw [State.result, List.head?_eq_getElem?]
  rfl

end Sys2Proof.Machine
end

section
/-! The statements about the step and its outputs (spec/46_fetch_execute.md). -/

namespace Sys2Proof.Machine

/-- Settles O7: the pointer of a step that is no transfer, and for Jump, Call and Return the transfer to the target,
which falls through at the instruction's own index. -/
theorem thePointerAdvancesUnlessTheInstructionMovedIt :
    Obligations.ThePointerAdvancesUnlessTheInstructionMovedIt := by
  unfold Obligations.ThePointerAdvancesUnlessTheInstructionMovedIt
  refine ⟨fun s i => step_ip_of_no_transfer, fun s i hi hlacks => ?_, fun s => step_of_atNoInstruction,
    fun s v rest hi hs => ?_, fun s v rest hi hs hroom => ?_, fun s v rest hi hs hfull => ?_,
    fun s f outer hi hf => ?_⟩
  · obtain ⟨-, hstep⟩ := completesAndAdvances_of_exec (exec_of_lacksItsInput hlacks) rfl rfl
    exact hstep hi
  · have hu : exec .jump s = .next { s with stack := rest, ip := v } := withTop_of_cons hs
    obtain ⟨-, hstep⟩ := completesAndTransfers_of_exec hu rfl
    exact hstep hi
  · have hu := execCall_of_room hs hroom
    obtain ⟨-, hstep⟩ := completesAndTransfers_of_exec (i := .call) hu rfl
    exact ⟨recordedBound s.params rest.length, recordedBound_of_fits, hstep hi⟩
  · have hu := execCall_of_full hs hfull
    obtain ⟨-, hstep⟩ := completesInPlace_of_exec (i := .call) hu (by simp)
    exact ⟨_, hstep hi, rfl, rfl⟩
  · have hu := execReturn_of_frame hf
    obtain ⟨-, hstep⟩ := completesAndTransfers_of_exec (i := .ret) hu rfl
    exact ⟨_, hstep hi, rfl, rfl⟩

/-- Settles O10: a halted state is a fixed point of the step, and so of every run. -/
theorem haltedStatesAreFixedPoints : Obligations.HaltedStatesAreFixedPoints := by
  unfold Obligations.HaltedStatesAreFixedPoints
  intro s hs
  have hfixed : core.step s = .next s := step_of_halted hs
  exact ⟨run_of_fixed_step hfixed, resetWith_status s.params s.prog⟩

/-- Settles O5: one lemma for each of the four cases of R74; the last is the execute phase and the advance. -/
theorem stepRunsTheDecodedInstruction : Obligations.StepRunsTheDecodedInstruction := by
  unfold Obligations.StepRunsTheDecodedInstruction
  refine fun s => ⟨step_of_halted, step_of_past_end, step_of_atNoInstruction, fun i hi => ?_⟩
  obtain ⟨u, hu⟩ := exec_total i s
  rw [step_of_atInstr hi hu, hu]
  rfl

/-- Settles O48: the result is the entry 0 places below the top, which exists exactly when the stack is not empty. -/
theorem resultIsTheTopOfTheStackOrZero : Obligations.ResultIsTheTopOfTheStackOrZero := by
  unfold Obligations.ResultIsTheTopOfTheStackOrZero
  intro s
  rw [result_eq_entryBelowTop]
  exact ⟨reverse_getElem?_eq_entryBelowTop (n := 0#32), fun hempty => entryBelowTop_of_length_le hempty.le⟩

end Sys2Proof.Machine
end

section
/-! SUPPORT. How a step ends: who raises which fault (R85, R88), and what a step of a running core comes to (R86). -/

namespace Sys2Proof.Machine

/-- R88, checks 3 and 4: the instruction has its input, and its fault condition holds with the cause `c`. -/
def RaisesFault (i : Instr) (s : State) (c : Cause) : Prop :=
  ¬ LacksItsInput i s ∧ FaultCondition i s c

section Faults
variable {i : Instr} {s : State} {c : Cause}

theorem not_lacksItsInput_iff (hi : i ≠ .ret) : ¬ LacksItsInput i s ↔ operandsNeeded i ≤ s.stack.length := by
  simp [LacksItsInput, hi]

/-- R85: the instructions that can fault. -/
theorem mem_of_faultCondition (h : FaultCondition i s c) :
    i ∈ [Instr.load, .write, .loadConst0, .loadConst1, .call, .divideInt, .moduloInt] := by
  rcases h with ⟨-, rfl | rfl, -⟩ | ⟨-, rfl, -⟩ | ⟨-, rfl, -⟩ | ⟨-, rfl, -⟩ | ⟨-, rfl | rfl, -⟩ <;> decide

theorem cause_ne_none_of_faultCondition (h : FaultCondition i s c) : c ≠ .none := by
  rcases h with ⟨rfl, -⟩ | ⟨rfl, -⟩ | ⟨rfl, -⟩ | ⟨rfl, -⟩ | ⟨rfl, -⟩ <;> decide

theorem zero_on_top_of_two_iff {stack : List Word} :
    2 ≤ stack.length ∧ stack.head? = some 0#32 ↔ ∃ a rest, stack = 0#32 :: a :: rest := by
  match stack with
  | [] => simp
  | [b] => simp
  | b :: a :: rest => simp

/-- R85: `DIV_ZERO` is raised by the two divisions, on both operands with 0 on top. -/
theorem raisesFault_divZero_iff :
    RaisesFault i s .divZero ↔ (i = .divideInt ∨ i = .moduloInt) ∧ ∃ a rest, s.stack = 0#32 :: a :: rest := by
  have hcond : FaultCondition i s .divZero ↔ (i = .divideInt ∨ i = .moduloInt) ∧ s.stack.head? = some 0#32 := by
    simp [FaultCondition]
  have hneeds : i = .divideInt ∨ i = .moduloInt → (¬ LacksItsInput i s ↔ 2 ≤ s.stack.length) := by
    rintro (rfl | rfl) <;> exact not_lacksItsInput_iff (by decide)
  rw [RaisesFault, hcond, and_left_comm, ← zero_on_top_of_two_iff]
  exact and_congr_right fun hi => and_congr_left' (hneeds hi)

/-- R85: `MEM_RANGE` is raised by Load and Write, on their operands with the address out of range. -/
theorem raisesFault_memRange_iff :
    RaisesFault i s .memRange ↔
      (i = .load ∧ ∃ addr rest, s.stack = addr :: rest ∧ s.params.memSize < addr.toNat + 4) ∨
      (i = .write ∧ ∃ v addr rest, s.stack = v :: addr :: rest ∧ s.params.memSize < addr.toNat + 4) := by
  constructor
  · rintro ⟨-, hcond⟩
    simpa [FaultCondition] using hcond
  · intro h
    refine ⟨?_, by simpa [FaultCondition] using h⟩
    rcases h with ⟨rfl, addr, rest, hs, -⟩ | ⟨rfl, v, addr, rest, hs, -⟩ <;>
      exact (not_lacksItsInput_iff (by decide)).2 (by simp [hs, operandsNeeded])

/-- R85: `STACK_OVERFLOW` is raised by the two literals on a full stack; they have no operand to lack. -/
theorem raisesFault_stackOverflow_iff :
    RaisesFault i s .stackOverflow ↔
      (i = .loadConst0 ∨ i = .loadConst1) ∧ s.params.stackCap = some s.stack.length := by
  constructor
  · rintro ⟨-, hcond⟩
    simpa [FaultCondition] using hcond
  · intro h
    refine ⟨?_, by simpa [FaultCondition] using h⟩
    rcases h with ⟨rfl | rfl, -⟩ <;> exact (not_lacksItsInput_iff (by decide)).2 (Nat.zero_le _)

/-- R85: `FRAME_OVERFLOW` is raised by a Call with its target on a full frame stack. -/
theorem raisesFault_frameOverflow_iff :
    RaisesFault i s .frameOverflow ↔
      i = .call ∧ 1 ≤ s.stack.length ∧ s.params.frameCap = some s.frames.length := by
  have hcond : FaultCondition i s .frameOverflow ↔ i = .call ∧ s.params.frameCap = some s.frames.length := by
    simp [FaultCondition]
  rw [RaisesFault, hcond, and_left_comm]
  refine and_congr_right ?_
  rintro rfl
  exact and_congr_left' (not_lacksItsInput_iff (by decide))

/-- R86, R88: an instruction with its input and its fault condition raises the fault. -/
theorem exec_of_raisesFault (h : RaisesFault i s c) : exec i s = .next (raiseFault c s) := by
  cases c with
  | none => exact absurd rfl (cause_ne_none_of_faultCondition h.2)
  | divZero =>
    obtain ⟨hi, a, rest, hs⟩ := raisesFault_divZero_iff.1 h
    obtain ⟨op, hop⟩ := exec_division hi
    exact (hop s).trans (replaceTwoNonzero_of_zero hs)
  | memRange =>
    rcases raisesFault_memRange_iff.1 h with ⟨rfl, addr, rest, hs, hm⟩ | ⟨rfl, v, addr, rest, hs, hm⟩
    · exact execLoad_of_beyond hs hm
    · exact execWrite_of_beyond hs hm
  | stackOverflow =>
    obtain ⟨hi, hfull⟩ := raisesFault_stackOverflow_iff.1 h
    obtain ⟨v, hv⟩ := exec_literal hi
    exact (hv s).trans (pushLiteral_of_full hfull)
  | frameOverflow =>
    obtain ⟨rfl, hdepth, hfull⟩ := raisesFault_frameOverflow_iff.1 h
    obtain ⟨v, rest, hs⟩ := List.exists_cons_of_length_pos hdepth
    exact execCall_of_full hs hfull

end Faults

section Outcomes
variable {i : Instr} {s t : State} {c : Cause}

/-- R86: the execute phase raises the instruction's fault, panics, or leaves `STATUS` and `CAUSE` alone. -/
theorem exec_halts_or_runs_on (h : exec i s = .next t) :
    (∃ c, RaisesFault i s c ∧ t = raiseFault c s) ∨ (i = .panic ∧ t = enterPanic s) ∨
      (t.status = s.status ∧ t.cause = s.cause) := by
  by_cases hlacks : LacksItsInput i s
  · rw [exec_of_lacksItsInput hlacks] at h
    cases h
    exact .inr (.inr ⟨rfl, rfl⟩)
  · cases exec_effect h with
    | fault c cond => exact .inl ⟨c, ⟨hlacks, cond⟩, rfl⟩
    | panic hi => exact .inr (.inl ⟨hi, rfl⟩)
    | noEffect | push | restack | store | jump | call | ret => exact .inr (.inr ⟨rfl, rfl⟩)

/-- R85, R86: what a step of a running core comes to: the end of the program, the fault of the instruction it is at,
a Panic, or a core that runs on with no `CAUSE` recorded. -/
inductive StepOutcome (s : State) : State → Prop
  | ended : StepOutcome s (enterEnd s)
  | fault (i : Instr) (c : Cause) (hi : AtInstr s i) (raises : RaisesFault i s c) : StepOutcome s (raiseFault c s)
  | panic (hi : AtInstr s .panic) : StepOutcome s (enterPanic s)
  | runsOn (t : State) (status : t.status = .run) (cause : t.cause = s.cause) : StepOutcome s t

theorem step_outcome (hr : s.status = .run) (h : step s = .next t) : StepOutcome s t := by
  rcases step_next h with ⟨hh, -⟩ | ⟨-, -, rfl⟩ | ⟨-, w, -, -, rfl⟩ | ⟨-, w, i, u, hf, hd, hu, rfl⟩
  · exact absurd hr hh
  · exact .ended
  · exact .runsOn _ hr rfl
  · have hi : AtInstr s i := ⟨hr, w, hf, hd⟩
    rcases exec_halts_or_runs_on hu with ⟨c, raises, rfl⟩ | ⟨rfl, rfl⟩ | ⟨hstatus, hcause⟩
    · rw [advance_of_halted _ _ (by simp)]
      exact .fault i c hi raises
    · rw [advance_of_halted _ _ (by simp)]
      exact .panic hi
    · exact .runsOn _ (by rw [advance_status, hstatus, hr]) (by rw [advance_cause, hcause])

theorem step_of_raisesFault (hi : AtInstr s i) (h : RaisesFault i s c) : step s = .next (raiseFault c s) := by
  obtain ⟨-, hstep⟩ := completesInPlace_of_exec (exec_of_raisesFault h) (by simp)
  exact hstep hi

theorem step_of_lacksItsInput (hi : AtInstr s i) (h : LacksItsInput i s) :
    step s = .next { s with ip := s.ip + 1#32 } := by
  obtain ⟨-, hstep⟩ := completesAndAdvances_of_exec (exec_of_lacksItsInput h) rfl rfl
  exact hstep hi

theorem step_of_atPanic (hi : AtInstr s .panic) : step s = .next (enterPanic s) := by
  obtain ⟨-, hstep⟩ := completesInPlace_of_exec (i := .panic) (u := enterPanic s) rfl (by simp)
  exact hstep hi

theorem exists_atInstr_of_one {a : Instr} {p : Prop} : (∃ i, AtInstr s i ∧ i = a ∧ p) ↔ AtInstr s a ∧ p := by
  simp only [and_left_comm, exists_eq_left]

theorem exists_atInstr_of_two {a b : Instr} {p : Prop} :
    (∃ i, AtInstr s i ∧ (i = a ∨ i = b) ∧ p) ↔ (AtInstr s a ∨ AtInstr s b) ∧ p := by
  simp only [or_and_right, and_or_left, exists_or, exists_atInstr_of_one]

/-- R23: a running core shows no `CAUSE`. -/
theorem cause_eq_none_of_running (hinv : s.Inv) (hr : s.status = .run) : s.cause = .none := by
  by_contra hcause
  have hfault : s.status = .fault := hinv.cause_iff_fault.1 hcause
  simp [hr] at hfault

/-- R85: a step of a running core faults exactly where it is at an instruction that raises the fault. -/
theorem step_faults_iff (hr : s.status = .run) (h : step s = .next t) :
    t.status = .fault ∧ t.cause = c ↔ ∃ i, AtInstr s i ∧ RaisesFault i s c := by
  constructor
  · rintro ⟨hstatus, rfl⟩
    cases step_outcome hr h with
    | fault i c hi raises => exact ⟨i, hi, raises⟩
    | ended | panic => cases hstatus
    | runsOn t hrun => rw [hrun] at hstatus; cases hstatus
  · rintro ⟨i, hi, raises⟩
    rw [step_of_raisesFault hi raises] at h
    cases h
    exact ⟨rfl, rfl⟩

/-- R85: a step of a running core panics exactly at a Panic. -/
theorem step_panics_iff (hr : s.status = .run) (h : step s = .next t) : t.status = .panic ↔ AtInstr s .panic := by
  constructor
  · intro hstatus
    cases step_outcome hr h with
    | panic hi => exact hi
    | ended | fault => cases hstatus
    | runsOn t hrun => rw [hrun] at hstatus; cases hstatus
  · intro hi
    rw [step_of_atPanic hi] at h
    cases h
    rfl

/-- R23, R86: only a fault writes `CAUSE`. -/
theorem step_keeps_cause (hr : s.status = .run) (h : step s = .next t) (hf : t.status ≠ .fault) :
    t.cause = s.cause := by
  cases step_outcome hr h with
  | ended | panic => rfl
  | fault => exact absurd rfl hf
  | runsOn t _ hcause => exact hcause

/-- R84: an instruction that can neither fault, panic nor transfer always goes on to the next index. -/
theorem step_runs_on_of_no_halt (hi : AtInstr s i) (hfault : ∀ c, ¬ FaultCondition i s c) (hpanic : i ≠ .panic)
    (hj : i ≠ .jump) (hc : i ≠ .call) (hr : i ≠ .ret) :
    ∃ t, step s = .next t ∧ t.status = .run ∧ t.cause = s.cause ∧ t.ip = s.ip + 1#32 := by
  obtain ⟨u, hu⟩ := exec_total i s
  obtain ⟨hrun, hcause⟩ : u.status = s.status ∧ u.cause = s.cause := by
    rcases exec_halts_or_runs_on hu with ⟨c, ⟨-, hcond⟩, -⟩ | ⟨hp, -⟩ | hkeeps
    · exact absurd hcond (hfault c)
    · exact absurd hp hpanic
    · exact hkeeps
  obtain ⟨hkeep, -, -⟩ := thePointerChangesInThreeWays
  obtain ⟨-, hstep⟩ := completesAndAdvances_of_exec hu hrun (hkeep i s u hu hj hc hr)
  exact ⟨_, hstep hi, hrun.trans hi.1, hcause, rfl⟩

/-- R84: a transfer past the program records no `CAUSE`, runs on at its target, and ends with the next step. -/
theorem transfer_past_end_records_no_cause {u : State} (hi : AtInstr s i) (hu : exec i s = .next u)
    (hst : u.status = s.status) (hprog : u.prog = s.prog) (hpast : s.prog.length ≤ u.ip.toNat) :
    ∃ t, step s = .next t ∧ t.status = .run ∧ t.cause = s.cause ∧ t.ip = u.ip ∧
      step t = .next { t with status := .ended } := by
  obtain ⟨t, ht, hip, hrun, hend⟩ := step_ends_after_transfer_past_end hi hu hst hprog hpast
  exact ⟨t, ht, hrun, step_keeps_cause hi.1 ht (by simp [hrun]), hip, hend⟩

end Outcomes

end Sys2Proof.Machine
end

section
/-! The statements about the conditions that stop the core and those that do not (spec/60_exceptions.md). -/

namespace Sys2Proof.Machine

/-- Settles O18: each outcome of a step that halts is one of the three named updates of the state. -/
theorem haltingChangesStatusAndCauseAlone : Obligations.HaltingChangesStatusAndCauseAlone := by
  unfold Obligations.HaltingChangesStatusAndCauseAlone
  intro s t hr h
  cases step_outcome hr h with
  | ended => exact ⟨nofun, nofun, fun _ => rfl⟩
  | fault i c hi raises => exact ⟨fun _ => ⟨cause_ne_none_of_faultCondition raises.2, rfl⟩, nofun, nofun⟩
  | panic => exact ⟨nofun, fun _ => rfl, nofun⟩
  | runsOn t hrun => simp [hrun]

/-- Settles O19: `step_faults_iff` with the rows of R85, one for each cause. -/
theorem fatalConditionsAreExactlyTheListedOnes : Obligations.FatalConditionsAreExactlyTheListedOnes := by
  unfold Obligations.FatalConditionsAreExactlyTheListedOnes
  refine ⟨fun s t hr h => ⟨step_panics_iff hr h, ?_, ?_, ?_, ?_, fun hfault => ?_, fun hpanic => ?_⟩, by decide⟩
  · simp only [step_faults_iff hr h, raisesFault_divZero_iff, exists_atInstr_of_two]
  · simp only [step_faults_iff hr h, raisesFault_memRange_iff, and_or_left, exists_or, exists_atInstr_of_one]
  · simp only [step_faults_iff hr h, raisesFault_stackOverflow_iff, exists_atInstr_of_two]
  · simp only [step_faults_iff hr h, raisesFault_frameOverflow_iff, exists_atInstr_of_one]
  · obtain ⟨hwrites, -, -⟩ := haltingChangesStatusAndCauseAlone s t hr h
    obtain ⟨hcause, ht⟩ := hwrites hfault
    rw [ht]
    exact ⟨hcause, rfl, rfl, rfl, rfl⟩
  · obtain ⟨-, hwrites, -⟩ := haltingChangesStatusAndCauseAlone s t hr h
    have hcause : t.cause = s.cause := step_keeps_cause hr h (by simp [hpanic])
    exact ⟨hcause, fun hinv => hcause.trans (cause_eq_none_of_running hinv hr), by rw [hwrites hpanic]⟩

/-- Settles O20: one lemma for each check, in their order; past all of them `exec_halts_or_runs_on` leaves no fault. -/
theorem checksAreMadeInTheirOrder : Obligations.ChecksAreMadeInTheirOrder := by
  unfold Obligations.ChecksAreMadeInTheirOrder
  refine fun s hr => ⟨step_of_past_end hr, step_of_atNoInstruction, fun i hi =>
    ⟨step_of_lacksItsInput hi, fun hinput c hcond => step_of_raisesFault hi ⟨hinput, hcond⟩, fun _ hnone => ?_⟩⟩
  obtain ⟨t, ht⟩ := exec_total i s
  refine ⟨t, ht, ?_⟩
  rcases exec_halts_or_runs_on ht with ⟨c, ⟨-, hcond⟩, -⟩ | ⟨-, rfl⟩ | ⟨hstatus, hcause⟩
  · exact absurd hcond (hnone c)
  · exact ⟨nofun, rfl⟩
  · exact ⟨by simp [hstatus, hr], hcause⟩

/-- R84: integer arithmetic but for the two divisions, and all float arithmetic, is outside `mem_of_faultCondition`
and is no Panic and no transfer. -/
theorem arithmetic_has_no_halt : ∀ i ∈ [Instr.addInt, .subtractInt, .multiplyInt, .addFloat, .subtractFloat,
      .multiplyFloat, .divideFloat, .moduloFloat],
    i ∉ [Instr.load, .write, .loadConst0, .loadConst1, .call, .divideInt, .moduloInt] ∧
      i ≠ .panic ∧ i ≠ .jump ∧ i ≠ .call ∧ i ≠ .ret := by
  decide

/-- Settles O21: no effect without input, the read below the bottom, the transfers past the program, and the
instructions that have no way to halt. -/
theorem theListedConditionsNeverStopTheCore : Obligations.TheListedConditionsNeverStopTheCore := by
  unfold Obligations.TheListedConditionsNeverStopTheCore
  refine ⟨fun s => step_of_atNoInstruction, fun s i => step_of_lacksItsInput, fun s n rest hi hs hbelow => ?_,
    fun s v rest hi hs hpast => ?_, fun s f outer hi hf hpast => ?_, fun s i hi hmem => ?_⟩
  · have hu : exec .duplicate s = .next { s with stack := entryBelowTop rest n :: rest } := withTop_of_cons hs
    rw [entryBelowTop_of_length_le hbelow] at hu
    obtain ⟨-, hstep⟩ := completesAndAdvances_of_exec hu rfl rfl
    exact hstep hi
  · rcases hi with hjump | ⟨hcall, hroom⟩
    · have hu : exec .jump s = .next { s with stack := rest, ip := v } := withTop_of_cons hs
      exact transfer_past_end_records_no_cause hjump hu rfl rfl hpast
    · exact transfer_past_end_records_no_cause hcall (execCall_of_room hs hroom) rfl rfl hpast
  · exact transfer_past_end_records_no_cause hi (execReturn_of_frame hf) rfl rfl hpast
  · obtain ⟨hfault, hpanic, hj, hc, hr⟩ := arithmetic_has_no_halt i hmem
    exact step_runs_on_of_no_halt hi (fun c hcond => hfault (mem_of_faultCondition hcond)) hpanic hj hc hr

end Sys2Proof.Machine
end

section
/-! The statement about reset (spec/70_reset_and_hazards.md), with what the reset state fetches first. -/

namespace Sys2Proof.Machine

section FirstStep
variable {p : Params} {w : Word} {ws : List Word}

theorem fetch_resetWith_cons : fetch (State.resetWith p (w :: ws)) = some w := rfl

theorem atInstr_resetWith_cons {i : Instr} (hd : decode p.opmap w = some i) :
    AtInstr (State.resetWith p (w :: ws)) i :=
  ⟨resetWith_status _ _, w, fetch_resetWith_cons, hd⟩

theorem atNoInstruction_resetWith_cons (hd : decode p.opmap w = none) :
    AtNoInstruction (State.resetWith p (w :: ws)) :=
  ⟨resetWith_status _ _, w, fetch_resetWith_cons, hd⟩

end FirstStep

/-- Settles O14: the empty program is past its end at index 0, and any other is at its first Word there; from each the
step is known. -/
theorem theFirstStepIsAtIndexZero : Obligations.TheFirstStepIsAtIndexZero := by
  unfold Obligations.TheFirstStepIsAtIndexZero
  refine ⟨fun p => ?_, fun p w ws i => atInstr_resetWith_cons, fun p w ws hd => ?_, fun p w hd => ?_⟩
  · exact step_of_past_end (resetWith_status p []) (Nat.zero_le _)
  · have hno : AtNoInstruction (State.resetWith p (w :: ws)) := atNoInstruction_resetWith_cons hd
    exact ⟨hno, step_of_atNoInstruction hno⟩
  · exact step_of_atPanic (atInstr_resetWith_cons hd)

end Sys2Proof.Machine
end

section
/-! SUPPORT. What the execute phase cannot see (R11, R18, R21 to R23): related states stay related. -/

namespace Sys2Proof.Machine

/-- The relation `R` is one that the execute phase of `i` cannot tell apart: related states agree in all that `i`
reads, and each update that `i` can make keeps them related. -/
structure BlindTo (i : Instr) (R : State → State → Prop) : Prop where
  params : ∀ {s s'}, R s s' → s'.params = s.params
  ip : ∀ {s s'}, R s s' → s'.ip = s.ip
  stack : ∀ {s s'}, R s s' → s'.stack = s.stack
  frames : i = .call ∨ i = .ret → ∀ {s s'}, R s s' → s'.frames = s.frames
  mem : i = .load → ∀ {s s'}, R s s' → s'.mem = s.mem
  restack : ∀ {s s'} k, R s s' → R { s with stack := k } { s' with stack := k }
  transfer : ∀ {s s'} a, R s s' → R { s with ip := a } { s' with ip := a }
  reframe : i = .call ∨ i = .ret → ∀ {s s'} k, R s s' → R { s with frames := k } { s' with frames := k }
  store : i = .write → ∀ {s s'} a v, R s s' →
    R { s with mem := s.mem.writeWord a v } { s' with mem := s'.mem.writeWord a v }
  raise : ∀ {s s'} c, R s s' → R (raiseFault c s) (raiseFault c s')
  panic : ∀ {s s'}, R s s' → R (enterPanic s) (enterPanic s')

section Related
variable {R : State → State → Prop} {s s' : State}

/-- The second answer is a next state related to the first. -/
def RelatedAnswers (R : State → State → Prop) (r r' : Result) : Prop :=
  ∀ t, r = .next t → ∃ u, r' = .next u ∧ R t u

theorem relatedAnswers_next {t u : State} (h : R t u) : RelatedAnswers R (.next t) (.next u) := by
  rintro _ ⟨⟩
  exact ⟨u, rfl, h⟩

theorem withTop_related {effect effect' : Word → List Word → State} (h : R s s') (hs : s'.stack = s.stack)
    (he : ∀ v rest, R (effect v rest) (effect' v rest)) :
    RelatedAnswers R (withTop s effect) (withTop s' effect') := by
  intro t ht
  rcases withTop_next ht with ⟨hempty, rfl⟩ | ⟨v, rest, hcons, rfl⟩
  · exact ⟨s', withTop_of_empty (hs.trans hempty), h⟩
  · exact ⟨_, withTop_of_cons (hs.trans hcons), he v rest⟩

theorem withTopTwo_related {effect effect' : Word → Word → List Word → State} (h : R s s') (hs : s'.stack = s.stack)
    (he : ∀ a b rest, R (effect a b rest) (effect' a b rest)) :
    RelatedAnswers R (withTopTwo s effect) (withTopTwo s' effect') := by
  intro t ht
  rcases withTopTwo_next ht with ⟨hshort, rfl⟩ | ⟨a, b, rest, hcons, rfl⟩
  · exact ⟨s', withTopTwo_of_short (hs ▸ hshort), h⟩
  · exact ⟨_, withTopTwo_of_cons (hs.trans hcons), he a b rest⟩

/-- Two runs that make the same check and are related in both branches are related. -/
theorem ite_related {p p' : Prop} [Decidable p] [Decidable p'] {t u t' u' : State} (hp : p' ↔ p) (ht : R t t')
    (hu : R u u') : R (if p then t else u) (if p' then t' else u') := by
  simp only [hp]
  split_ifs
  · exact ht
  · exact hu

variable {i : Instr}

theorem pushLiteral_related (hR : BlindTo i R) (h : R s s') (v : Word) :
    RelatedAnswers R (pushLiteral s v) (pushLiteral s' v) := by
  have hs := hR.stack h
  have hp := hR.params h
  by_cases hc : s.params.stackCap = some s.stack.length
  · rw [pushLiteral_of_full hc, pushLiteral_of_full (by rw [hp, hs]; exact hc)]
    exact relatedAnswers_next (hR.raise _ h)
  · rw [pushLiteral_of_room hc, pushLiteral_of_room (by rw [hp, hs]; exact hc), hs]
    exact relatedAnswers_next (hR.restack _ h)

theorem execReturn_related (hR : BlindTo .ret R) (h : R s s') : RelatedAnswers R (execReturn s) (execReturn s') := by
  have hf : s'.frames = s.frames := hR.frames (.inr rfl) h
  cases hs : s.frames with
  | nil =>
    rw [execReturn_of_no_frame hs, execReturn_of_no_frame (hf.trans hs)]
    exact relatedAnswers_next h
  | cons f outer =>
    rw [execReturn_of_frame hs, execReturn_of_frame (hf.trans hs), hR.stack h]
    exact relatedAnswers_next (hR.transfer _ (hR.reframe (.inr rfl) outer (hR.restack _ h)))

/-- Non-interference in its general form: what an instruction cannot tell apart it does not tell apart. -/
theorem exec_related (hR : BlindTo i R) (h : R s s') : RelatedAnswers R (exec i s) (exec i s') := by
  have hs := hR.stack h
  have hp := hR.params h
  cases i with
  | load =>
    have hword (a : Nat) : s'.mem.readWord a = s.mem.readWord a := by rw [hR.mem rfl h]
    refine withTop_related h hs fun addr rest => ite_related (by rw [hp]) ?_ (hR.raise _ h)
    rw [hword]
    exact hR.restack _ h
  | write =>
    exact withTopTwo_related h hs fun addr v rest =>
      ite_related (by rw [hp]) (hR.store rfl addr.toNat v (hR.restack rest h)) (hR.raise _ h)
  | loadConst0 | loadConst1 => exact pushLiteral_related hR h _
  | duplicate | pop => exact withTop_related h hs fun _ _ => hR.restack _ h
  | jump => exact withTop_related h hs fun target rest => hR.transfer target (hR.restack rest h)
  | call =>
    have hf := hR.frames (.inl rfl) h
    have hpush (n : Nat) : (⟨recordedBound s'.params n, s'.ip + 1#32⟩ : Frame) :: s'.frames =
        ⟨recordedBound s.params n, s.ip + 1#32⟩ :: s.frames := by rw [hp, hf, hR.ip h]
    refine withTop_related h hs fun target rest => ite_related (by rw [hp, hf]) (hR.raise _ h) ?_
    rw [hpush]
    exact hR.transfer target (hR.reframe (.inl rfl) _ (hR.restack rest h))
  | ret => exact execReturn_related hR h
  | panic => exact relatedAnswers_next (hR.panic h)
  | divideInt | moduloInt =>
    exact withTopTwo_related h hs fun _ _ _ => ite_related Iff.rfl (hR.raise _ h) (hR.restack _ h)
  | addInt | subtractInt | multiplyInt | addFloat | subtractFloat | multiplyFloat | divideFloat | moduloFloat =>
    exact withTopTwo_related h hs fun _ _ _ => hR.restack _ h

end Related

/-! ### The relations for the program, Memory, the frame stack and the two halting registers -/

section Relations
variable {i : Instr}

/-- R11: no instruction reads or writes the program. -/
theorem blindTo_prog (i : Instr) (prog : List Word) : BlindTo i fun t u => u = { t with prog := prog } := by
  constructor <;> (intros; subst_vars; rfl)

/-- R21: an instruction other than Load and Write is blind to Memory. -/
theorem blindTo_mem (hl : i ≠ .load) (hw : i ≠ .write) (m : Memory) :
    BlindTo i fun t u => u = { t with mem := m } := by
  constructor
  case mem => exact fun hi => absurd hi hl
  case store => exact fun hi => absurd hi hw
  all_goals (intros; subst_vars; rfl)

/-- R18: an instruction other than Call and Return is blind to the frame stack. -/
theorem blindTo_frames (hc : i ≠ .call) (hr : i ≠ .ret) (fs : List Frame) :
    BlindTo i fun t u => u = { t with frames := fs } := by
  constructor
  case frames | reframe => exact fun hi => absurd hi (not_or.2 ⟨hc, hr⟩)
  all_goals (intros; subst_vars; rfl)

/-- Two runs, from Memory `m₀` and from Memory `m`, that agree in everything but Memory, and of each byte have both
kept what was there or both stored one value. -/
def StoredAlike (m₀ m : Memory) (t u : State) : Prop :=
  ∃ m', u = { t with mem := m' } ∧
    ∀ a, (m'.readByte a = m.readByte a ∧ t.mem.readByte a = m₀.readByte a) ∨ m'.readByte a = t.mem.readByte a

theorem StoredAlike.store {m₀ m : Memory} {t u : State} (h : StoredAlike m₀ m t u) (addr : Nat) (v : Word) :
    StoredAlike m₀ m { t with mem := t.mem.writeWord addr v } { u with mem := u.mem.writeWord addr v } := by
  obtain ⟨m', rfl, hbytes⟩ := h
  refine ⟨m'.writeWord addr v, rfl, fun a => ?_⟩
  simp only [readByte_writeWord]
  split_ifs
  · exact .inr rfl
  · exact hbytes a

/-- R32: Write is blind to what Memory holds. -/
theorem blindTo_storedAlike (m₀ m : Memory) : BlindTo .write (StoredAlike m₀ m) := by
  constructor
  case store => exact fun _ _ _ addr v h => h.store addr v
  case mem | frames | reframe => simp
  case params | ip | stack => rintro s s' ⟨m', rfl, -⟩; rfl
  all_goals
    intros
    rename_i h
    obtain ⟨m', rfl, hbytes⟩ := h
    exact ⟨m', rfl, hbytes⟩

/-- Two runs, from `STATUS` and `CAUSE` of `s₀` and from `st` and `c`, that agree in everything but the two
registers, and of each of the two have both kept what was there or both written one value. -/
structure HaltedAlike (s₀ : State) (st : Status) (c : Cause) (t u : State) : Prop where
  others : { u with status := t.status, cause := t.cause } = t
  status : u.status = t.status ∨ (t.status = s₀.status ∧ u.status = st)
  cause : u.cause = t.cause ∨ (t.cause = s₀.cause ∧ u.cause = c)

/-- R22, R23: no instruction reads the two registers. -/
theorem blindTo_haltedAlike (i : Instr) (s₀ : State) (st : Status) (c : Cause) :
    BlindTo i (HaltedAlike s₀ st c) where
  params h := (congrArg State.params h.others :)
  ip h := (congrArg State.ip h.others :)
  stack h := (congrArg State.stack h.others :)
  frames _ _ _ h := (congrArg State.frames h.others :)
  mem _ _ _ h := (congrArg State.mem h.others :)
  restack k h := ⟨congrArg (fun r => { r with stack := k }) h.others, h.status, h.cause⟩
  transfer a h := ⟨congrArg (fun r => { r with ip := a }) h.others, h.status, h.cause⟩
  reframe _ _ _ k h := ⟨congrArg (fun r => { r with frames := k }) h.others, h.status, h.cause⟩
  store _ _ _ a v h :=
    ⟨congrArg (fun r => { r with mem := r.mem.writeWord a v }) h.others, h.status, h.cause⟩
  raise c' h := ⟨(congrArg (raiseFault c') h.others :), .inl rfl, .inl rfl⟩
  panic h := ⟨congrArg enterPanic h.others, .inl rfl, h.cause⟩

end Relations

end Sys2Proof.Machine
end

section
/-! SUPPORT. What the execute phase leaves unchanged, and that it keeps the invariant (R11, R18 to R23). -/

namespace Sys2Proof.Machine

section Unchanged
variable {i : Instr} {s t : State}

theorem exec_prog (h : exec i s = .next t) : t.prog = s.prog := by
  cases exec_effect h <;> rfl

/-- R21: only Write stores. -/
theorem exec_mem (h : exec i s = .next t) (hw : i ≠ .write) : t.mem = s.mem := by
  cases exec_effect h with
  | noEffect | fault | panic | push | restack | jump | call | ret => rfl
  | store _ _ _ hi => exact absurd hi hw

/-- R18: only Call and Return change the frame stack. -/
theorem exec_frames (h : exec i s = .next t) (hc : i ≠ .call) (hr : i ≠ .ret) : t.frames = s.frames := by
  cases exec_effect h with
  | noEffect | fault | panic | push | restack | store | jump => rfl
  | call _ _ hi => exact absurd hi hc
  | ret _ _ hi => exact absurd hi hr

/-- R55: Call pushes one frame or none. -/
theorem execCall_frames (h : execCall s = .next t) : t.frames = s.frames ∨ ∃ f, t.frames = f :: s.frames := by
  rcases execCall_next h with ⟨-, rfl⟩ | ⟨v, rest, -, ⟨-, rfl⟩ | ⟨-, rfl⟩⟩
  · exact .inl rfl
  · exact .inl rfl
  · exact .inr ⟨_, rfl⟩

/-- R56: Return removes the innermost frame, if any. -/
theorem execReturn_frames (h : execReturn s = .next t) : t.frames = s.frames.tail := by
  rcases execReturn_next h with ⟨hf, rfl⟩ | ⟨f, outer, hf, rfl⟩
  · simp [hf]
  · simp [hf]

theorem step_keeps_prog_and_params (h : step s = .next t) : t.prog = s.prog ∧ t.params = s.params := by
  refine step_keeps (P := fun r => r.prog = s.prog ∧ r.params = s.params) (fun _ _ _ hr => hr) ?_ h ⟨rfl, rfl⟩
  exact fun hu _ => ⟨exec_prog hu, exec_params hu⟩

end Unchanged

section Invariant
variable {i : Instr} {s t u : State}

theorem within_mono {n m : Nat} {cap : Option Nat} (h : n ≤ m) (hw : Within m cap) : Within n cap :=
  fun c hc => h.trans (hw c hc)

/-- The cells of a stored Word lie in Memory where the access does. -/
theorem address_of_mem_writeWord_lt {m : Memory} {addr : Word} {v : Word} {size : Nat}
    (hm : ∀ c ∈ m, c.1 < size) (hin : addr.toNat + 4 ≤ size) : ∀ c ∈ m.writeWord addr.toNat v, c.1 < size := by
  intro c hc
  rcases address_of_mem_writeWord hc with ⟨-, hlt⟩ | hc
  · omega
  · exact hm c hc

/-- R18, R55: the frame that a Call at an index inside the program records is one the invariant allows. -/
theorem State.Inv.of_call (hinv : s.Inv) {target : Word} {rest : List Word} {w : Word} (hf : fetch s = some w)
    (hs : s.stack = target :: rest) (hstatus : s.status = .run)
    (hroom : s.params.frameCap ≠ some s.frames.length) :
    State.Inv { s with
      stack := rest
      frames := { bound := recordedBound s.params rest.length, resume := s.ip + 1#32 } :: s.frames
      ip := target } := by
  obtain ⟨hin, hnext⟩ := advanced_toNat hinv.prog_ok hf
  have hrest : Within rest.length s.params.stackCap := within_mono (by simp [hs]) hinv.stack_fits
  exact { hinv with
    stack_fits := hrest
    frames_fit := within_of_grows_with_room (.inr ⟨hroom, rfl⟩) hinv.frames_fit
    bounds_fit := List.forall_mem_cons.2 ⟨within_mono (recordedBound_le _ _) hrest, hinv.bounds_fit⟩
    bounds_have_their_width := List.forall_mem_cons.2 ⟨recordedBound_lt _, hinv.bounds_have_their_width⟩
    resumes_after_a_call := List.forall_mem_cons.2 ⟨by simp only [hnext]; omega, hinv.resumes_after_a_call⟩
    ended_past_program := by simp [hstatus]
    halted_in_program := by simp [hstatus] }

/-- R19, R56: Return leaves what the invariant said of the frames beneath and of a stack no deeper. -/
theorem State.Inv.of_ret (hinv : s.Inv) {f : Frame} {outer : List Frame} (hf : s.frames = f :: outer)
    (hstatus : s.status = .run) :
    State.Inv { s with stack := truncate f.bound s.stack, frames := outer, ip := f.resume } := by
  have hmem {g : Frame} (hg : g ∈ outer) : g ∈ s.frames := hf ▸ List.mem_cons_of_mem f hg
  exact { hinv with
    stack_fits := within_mono (by simp [truncate_length]) hinv.stack_fits
    frames_fit := within_mono (by simp [hf]) hinv.frames_fit
    bounds_fit := fun g hg => hinv.bounds_fit g (hmem hg)
    bounds_have_their_width := fun g hg => hinv.bounds_have_their_width g (hmem hg)
    resumes_after_a_call := fun g hg => hinv.resumes_after_a_call g (hmem hg)
    ended_past_program := by simp [hstatus]
    halted_in_program := by simp [hstatus] }

/-- The execute phase of an instruction at the pointer keeps the invariant, before the advance. -/
theorem exec_keeps_inv (hinv : s.Inv) (hi : AtInstr s i) (hu : exec i s = .next u) : u.Inv := by
  obtain ⟨hstatus, w, hfetch, -⟩ := hi
  have hin : s.ip.toNat < s.prog.length := (List.getElem?_eq_some_iff.1 hfetch).1
  cases exec_effect hu with
  | noEffect => exact hinv
  | fault c cond =>
    exact { hinv with
      cause_iff_fault := by simp [cause_ne_none_of_faultCondition cond]
      ended_past_program := by simp
      halted_in_program := fun _ => hin }
  | panic =>
    exact { hinv with
      cause_iff_fault := by simp [cause_eq_none_of_running hinv hstatus]
      ended_past_program := by simp
      halted_in_program := fun _ => hin }
  | push v _ room => exact { hinv with stack_fits := within_of_grows_with_room (.inr ⟨room, rfl⟩) hinv.stack_fits }
  | restack stack shorter => exact { hinv with stack_fits := within_mono shorter hinv.stack_fits }
  | store addr v rest _ hs hm =>
    exact { hinv with
      stack_fits := within_mono (by simp only [hs, List.length_cons]; omega) hinv.stack_fits
      mem_canonical := writeWord_wf hinv.mem_canonical addr.toNat v
      mem_in_range := address_of_mem_writeWord_lt hinv.mem_in_range hm }
  | jump target rest _ hs =>
    exact { hinv with
      stack_fits := within_mono (by simp [hs]) hinv.stack_fits
      ended_past_program := by simp [hstatus]
      halted_in_program := by simp [hstatus] }
  | call target rest _ hs hroom => exact hinv.of_call hfetch hs hstatus hroom
  | ret f outer _ hf => exact hinv.of_ret hf hstatus

/-- The invariant says nothing of the pointer of a running core. -/
theorem State.Inv.with_ip (hinv : s.Inv) (hstatus : s.status = .run) (ip : Word) : State.Inv { s with ip := ip } :=
  { hinv with
    ended_past_program := by simp [hstatus]
    halted_in_program := by simp [hstatus] }

theorem advance_keeps_inv (hinv : s.Inv) (ip : Word) : (advance ip s).Inv := by
  by_cases hstatus : s.status = .run
  · rw [advance_eq]
    exact hinv.with_ip hstatus _
  · rw [advance_of_halted _ _ hstatus]
    exact hinv

/-- R75: past its program a running core ends as the invariant has it. -/
theorem enterEnd_keeps_inv (hinv : s.Inv) (hstatus : s.status = .run) (hpast : s.prog.length ≤ s.ip.toNat) :
    (enterEnd s).Inv :=
  { hinv with
    cause_iff_fault := by simp [cause_eq_none_of_running hinv hstatus]
    ended_past_program := fun _ => hpast
    halted_in_program := by simp }

theorem resetWith_inv {p : Params} {prog : List Word} (hp : p.wellFormed = true)
    (hprog : programWellFormed prog = true) : (State.resetWith p prog).Inv where
  params_ok := hp
  prog_ok := hprog
  mem_canonical := nil_wf
  mem_in_range := List.forall_mem_nil _
  stack_fits := fun _ _ => Nat.zero_le _
  frames_fit := fun _ _ => Nat.zero_le _
  bounds_fit := List.forall_mem_nil _
  bounds_have_their_width := List.forall_mem_nil _
  resumes_after_a_call := List.forall_mem_nil _
  cause_iff_fault := by simp
  ended_past_program := by simp
  halted_in_program := by simp

end Invariant

end Sys2Proof.Machine
end

section
/-! The statements about the machine as a whole: the invariant, what every step does, and who touches what
(spec/10_state.md, spec/46_fetch_execute.md, spec/70_reset_and_hazards.md). -/

namespace Sys2Proof.Machine

/-- Settles O15, by the four ways of `step_next`; at an instruction the execute phase keeps the invariant, and the
advance of a core that still runs has no part in it. -/
theorem everyStepKeepsTheMachineInvariant : Obligations.EveryStepKeepsTheMachineInvariant := by
  unfold Obligations.EveryStepKeepsTheMachineInvariant
  intro s t hinv h
  rcases step_next h with ⟨-, rfl⟩ | ⟨hr, hpast, rfl⟩ | ⟨hr, w, -, -, rfl⟩ | ⟨hr, w, i, u, hf, hd, hu, rfl⟩
  · exact hinv
  · exact enterEnd_keeps_inv hinv hr hpast
  · exact hinv.with_ip hr _
  · exact advance_keeps_inv (exec_keeps_inv hinv ⟨hr, w, hf, hd⟩ hu) s.ip

/-- Settles O16: in the reset state nothing is stacked or stored, and the core runs. -/
theorem resetMeetsTheMachineInvariant : Obligations.ResetMeetsTheMachineInvariant := by
  unfold Obligations.ResetMeetsTheMachineInvariant
  exact ⟨fun p prog => resetWith_inv, resetWith_inv (by decide) rfl⟩

/-- Settles O6: the execute phase is total, and a step that comes to none has one of the other three ends. -/
theorem everyStepAnswersANextState : Obligations.EveryStepAnswersANextState := by
  unfold Obligations.EveryStepAnswersANextState
  refine ⟨exec_total, fun s => ?_⟩
  by_cases hr : s.status = .run
  · cases hf : fetch s with
    | none => exact ⟨_, step_of_past_end hr (fetch_eq_none.1 hf)⟩
    | some w =>
      cases hd : decode s.params.opmap w with
      | none => exact ⟨_, step_of_atNoInstruction ⟨hr, w, hf, hd⟩⟩
      | some i =>
        obtain ⟨u, hu⟩ := exec_total i s
        exact ⟨_, step_of_exec hr hf hd hu⟩
  · exact ⟨s, step_of_halted hr⟩

/-- Settles O8: the advance is made exactly where a running core would stay at its index. -/
theorem everyRunningStepMovesThePointer : Obligations.EveryRunningStepMovesThePointer := by
  unfold Obligations.EveryRunningStepMovesThePointer
  intro s t hr h ht
  rcases step_next h with ⟨hh, -⟩ | ⟨-, -, rfl⟩ | ⟨-, w, -, -, rfl⟩ | ⟨-, w, i, u, -, -, -, rfl⟩
  · exact absurd hr hh
  · cases ht
  · simp
  · rw [advance_status] at ht
    rw [advance_ip]
    split_ifs with hmove
    · obtain ⟨-, hip⟩ := hmove
      simp [hip]
    · exact fun hip => hmove ⟨ht, hip⟩

/-- R11: the advance has no part in the program. -/
theorem advance_with_prog (ip : Word) (r : State) (prog : List Word) :
    advance ip { r with prog := prog } = { advance ip r with prog := prog } := by
  unfold advance
  split_ifs <;> rfl

/-- Settles O11: the two runs fetch the same, and the execute phase is blind to the program. -/
theorem aStepReadsOneProgramWord : Obligations.AStepReadsOneProgramWord := by
  unfold Obligations.AStepReadsOneProgramWord
  intro s t prog hsame h
  have hfetch : fetch { s with prog := prog } = fetch s := hsame
  rcases step_next h with ⟨hh, rfl⟩ | ⟨hr, hpast, rfl⟩ | ⟨hr, w, hf, hd, rfl⟩ | ⟨hr, w, i, u, hf, hd, hu, rfl⟩
  · exact step_of_halted hh
  · exact step_of_past_end hr (fetch_eq_none.1 (hfetch.trans (fetch_eq_none.2 hpast)))
  · exact step_of_atNoInstruction ⟨hr, w, hfetch.trans hf, hd⟩
  · obtain ⟨u', hu', rfl⟩ := exec_related (blindTo_prog i prog) rfl u hu
    rw [← advance_with_prog]
    exact step_of_exec (s := { s with prog := prog }) hr (hfetch.trans hf) hd hu'

/-- Settles O12, by induction on the number of steps. -/
theorem programAndParametersNeverChange : Obligations.ProgramAndParametersNeverChange := by
  unfold Obligations.ProgramAndParametersNeverChange
  intro k
  induction k with
  | zero => rintro s t ⟨⟩; exact ⟨rfl, rfl⟩
  | succ k ih =>
    intro s t h
    obtain ⟨-, htotal⟩ := everyStepAnswersANextState
    obtain ⟨u, hu⟩ := htotal s
    have hcore : core.step s = .next u := hu
    simp only [Host.Core.run, hcore] at h
    obtain ⟨hprog, hparams⟩ := ih u t h
    obtain ⟨hprog', hparams'⟩ := step_keeps_prog_and_params hu
    exact ⟨hprog.trans hprog', hparams.trans hparams'⟩

/-- Settles O22: `exec_mem`, and blindness to Memory; Write, which is blind to what the bytes were, stores alike. -/
theorem onlyWriteChangesMemoryAndOnlyLoadReadsIt : Obligations.OnlyWriteChangesMemoryAndOnlyLoadReadsIt := by
  unfold Obligations.OnlyWriteChangesMemoryAndOnlyLoadReadsIt
  refine ⟨fun i s t => exec_mem, fun i s t m h hl hw => ?_, fun s t m h => ?_⟩
  · obtain ⟨u, hu, rfl⟩ := exec_related (blindTo_mem hl hw m) rfl t h
    exact hu
  · have hstart : StoredAlike s.mem m s { s with mem := m } := ⟨m, rfl, fun _ => .inl ⟨rfl, rfl⟩⟩
    obtain ⟨u, hu, m', rfl, hbytes⟩ := exec_related (blindTo_storedAlike s.mem m) hstart t h
    exact ⟨m', hu, hbytes⟩

/-- Settles O23: `exec_frames` and blindness to the frame stack, and what Call and Return make of it. -/
theorem onlyCallAndReturnTouchTheFrameStack : Obligations.OnlyCallAndReturnTouchTheFrameStack := by
  unfold Obligations.OnlyCallAndReturnTouchTheFrameStack
  refine ⟨fun i s t fs h hc hr => ⟨exec_frames h hc hr, ?_⟩, fun s t => execCall_frames, fun s t => execReturn_frames⟩
  obtain ⟨u, hu, rfl⟩ := exec_related (blindTo_frames hc hr fs) rfl t h
  exact hu

/-- Settles O24: blindness to the two registers, from two states that differ in nothing else. -/
theorem noInstructionReadsStatusOrCause : Obligations.NoInstructionReadsStatusOrCause := by
  unfold Obligations.NoInstructionReadsStatusOrCause
  intro i s t st c h
  have hstart : HaltedAlike s st c s { s with status := st, cause := c } :=
    ⟨rfl, .inr ⟨rfl, rfl⟩, .inr ⟨rfl, rfl⟩⟩
  obtain ⟨u, hu, hothers, hstatus, hcause⟩ := exec_related (blindTo_haltedAlike i s st c) hstart t h
  exact ⟨u, hu, hothers, hstatus, hcause⟩

/-- R22: `FAULT` is the one status shown as 3. -/
theorem statusPort_eq_three_iff (s : State) : s.statusPort = 3#2 ↔ s.status = .fault := by
  unfold State.statusPort
  cases s.status <;> decide

/-- R23: `NONE` is the one cause shown as 0. -/
theorem causePort_eq_zero_iff (s : State) : s.causePort = 0#3 ↔ s.cause = .none := by
  unfold State.causePort
  cases s.cause <;> decide

/-- Settles O49: the codes, and the invariant's own clause on `CAUSE` read at the ports. -/
theorem statusAndCauseShowTheirNumbers : Obligations.StatusAndCauseShowTheirNumbers := by
  unfold Obligations.StatusAndCauseShowTheirNumbers
  refine ⟨rfl, rfl, rfl, rfl, rfl, rfl, rfl, rfl, rfl, fun s hinv => ?_⟩
  rw [Ne, statusPort_eq_three_iff, causePort_eq_zero_iff, ← hinv.cause_iff_fault, not_not]

/-- Settles O4: the eleven Words looked up in the default map. -/
theorem sampleWordsDecode : Obligations.SampleWordsDecode := by
  unfold Obligations.SampleWordsDecode
  decide

end Sys2Proof.Machine
end

section
/-! SUPPORT. The bytes a Load gives, and the stack a Return leaves counted from the bottom. -/

namespace Sys2Proof.Machine

/-- R31: byte `k` of the Word read at an address is the byte `k` places after it. -/
theorem readWord_byte (m : Memory) (a : Nat) {k : Nat} (hk : k < 4) :
    (m.readWord a).toNat / 2 ^ (8 * k) % 256 = (m.readByte (a + k)).toNat := by
  have h0 := (m.readByte a).isLt
  have h1 := (m.readByte (a + 1)).isLt
  have h2 := (m.readByte (a + 2)).isLt
  have h3 := (m.readByte (a + 3)).isLt
  rw [readWord_toNat]
  interval_cases k
  · change _ = (m.readByte a).toNat; omega
  all_goals omega

section Truncation
variable {bound k : Nat} {stack : List Word}

theorem truncate_of_length_le (h : stack.length ≤ bound) : truncate bound stack = stack := by
  rw [truncate, Nat.sub_eq_zero_of_le h, List.drop_zero]

theorem truncate_reverse_getElem?_of_lt (h : k < bound) :
    (truncate bound stack).reverse[k]? = stack.reverse[k]? := by
  rw [truncate_reverse, List.getElem?_take_of_lt h]

theorem truncate_reverse_getElem?_of_le (h : bound ≤ k) : (truncate bound stack).reverse[k]? = none := by
  rw [truncate_reverse, List.getElem?_take_eq_none h]

/-- R19: the entries that lay beneath a target before its Call, cut to the bound that the Call recorded. -/
theorem truncate_recordedBound_of_fits {p : Params} (h : FitsBoundWidth p stack.length) :
    truncate (recordedBound p stack.length) stack = stack :=
  truncate_of_length_le (recordedBound_of_fits h).ge

end Truncation

/-- R55: the state a Call leaves that has popped its target and has room for its frame. -/
def calledState (s : State) (target : Word) (rest : List Word) : State :=
  { s with
    stack := rest
    frames := { bound := recordedBound s.params rest.length, resume := s.ip + 1#32 } :: s.frames
    ip := target }

/-- R77: a Call to any index but its own is followed by its target. -/
theorem step_of_atCall {s : State} {v : Word} {rest : List Word} (hi : AtInstr s .call) (hs : s.stack = v :: rest)
    (hroom : s.params.frameCap ≠ some s.frames.length) (hmoved : v ≠ s.ip) :
    step s = .next (calledState s v rest) := by
  have hu : exec .call s = .next (calledState s v rest) := execCall_of_room hs hroom
  rw [step_of_atInstr hi hu, advance_of_moved _ (calledState s v rest) hmoved]

end Sys2Proof.Machine
end

section
/-! The statements about Load after Write, about Return, and about the form of the float instructions
(spec/20_memory.md, spec/43_control_transfer.md, spec/45_float_arith.md). -/

namespace Sys2Proof.Machine

/-- Settles O29: the Load in Memory after the store, byte by byte by `readByte_writeWord`. -/
theorem loadAfterWriteReadsTheStoredBytes : Obligations.LoadAfterWriteReadsTheStoredBytes := by
  unfold Obligations.LoadAfterWriteReadsTheStoredBytes
  intro s addr v rest hs hm
  refine ⟨_, execWrite_of_inRange hs hm, fun b rest' hb => ⟨_, execLoad_of_inRange rfl hb, fun k hk => ?_⟩⟩
  rw [readWord_byte _ _ hk, readByte_writeWord]
  split_ifs
  · exact wordByte_toNat v _
  · rfl

/-- Settles O35: no effect without a frame, and the transfer to the resume point with the stack truncated. -/
theorem returnTruncatesToTheBoundAndResumes : Obligations.ReturnTruncatesToTheBoundAndResumes := by
  unfold Obligations.ReturnTruncatesToTheBoundAndResumes
  refine ⟨rfl, fun s hf => completesAndAdvances_of_exec (execReturn_of_no_frame hf) rfl rfl, fun s f outer hf => ?_⟩
  exact ⟨truncate f.bound s.stack, fun _ => truncate_reverse f.bound s.stack, truncate_of_length_le,
    completesAndTransfers_of_exec (execReturn_of_frame hf) rfl⟩

/-- Settles O36: the entries of a truncated stack by their places from the bottom. -/
theorem entriesBelowTheBoundSurviveReturn : Obligations.EntriesBelowTheBoundSurviveReturn := by
  unfold Obligations.EntriesBelowTheBoundSurviveReturn
  intro s t f outer hf h
  have hret : exec .ret s = .next _ := execReturn_of_frame hf
  rw [hret] at h
  cases h
  exact ⟨fun k => truncate_reverse_getElem?_of_lt, fun k => truncate_reverse_getElem?_of_le,
    (truncate_length f.bound s.stack).trans_le (min_le_right _ _)⟩

/-- Settles O38: the Call moves the pointer, since no Return stands at its own index; the Return then takes the frame
of the Call. -/
theorem callThenReturnRestoresTheStack : Obligations.CallThenReturnRestoresTheStack := by
  unfold Obligations.CallThenReturnRestoresTheStack
  intro s v rest w hi hs hroom hw hd
  have hmoved : v ≠ s.ip := by
    rintro rfl
    obtain ⟨-, w', hw', hd'⟩ := hi
    obtain rfl : w' = w := Option.some.inj (hw'.symm.trans hw)
    exact absurd (hd'.symm.trans hd) (by decide)
  refine ⟨calledState s v rest, truncate (recordedBound s.params rest.length) rest, step_of_atCall hi hs hroom hmoved,
    truncate_recordedBound_of_fits, ⟨_, truncate_reverse _ _⟩, ?_⟩
  have hu : exec .ret (calledState s v rest) = .next { s with
      stack := truncate (recordedBound s.params rest.length) rest, ip := s.ip + 1#32 } :=
    execReturn_of_frame (s := calledState s v rest) rfl
  obtain ⟨-, hstep⟩ := completesAndTransfers_of_exec hu rfl
  have htwo : s.ip + 1#32 + 1#32 = s.ip + 2#32 := by bv_omega
  rw [hstep ⟨hi.1, w, hw, hd⟩]
  by_cases hv : v = s.ip + 1#32
  · simp [calledState, hv, htwo]
  · simp [calledState, hv, Ne.symm hv]

/-- R65, R69 to R73: the float instruction of each function. -/
theorem exec_float {i : Instr} {op : Word → Word → Word}
    (h : (i, op) ∈ [(Instr.addFloat, fadd), (.subtractFloat, fsub), (.multiplyFloat, fmul), (.divideFloat, fdiv),
      (.moduloFloat, frem)]) : operandsNeeded i = 2 ∧ ∀ s, exec i s = replaceTwo s op := by
  simp only [List.mem_cons, Prod.mk.injEq, List.not_mem_nil, or_false] at h
  rcases h with ⟨rfl, rfl⟩ | ⟨rfl, rfl⟩ | ⟨rfl, rfl⟩ | ⟨rfl, rfl⟩ | ⟨rfl, rfl⟩ <;> exact ⟨rfl, fun _ => rfl⟩

/-- Settles O41: each of the five is `replaceTwo` of its function. -/
theorem floatInstructionsReplaceTheirOperands : Obligations.FloatInstructionsReplaceTheirOperands := by
  unfold Obligations.FloatInstructionsReplaceTheirOperands
  refine ⟨rfl, rfl, rfl, rfl, rfl, fun i op hop => ?_⟩
  obtain ⟨hk, hexec⟩ := exec_float hop
  exact ⟨fun s => completesAndAdvances_of_short hk, fun s a b rest => completesAndAdvances_of_replaceTwo (hexec s)⟩

end Sys2Proof.Machine
end

section
/-! SUPPORT. Words as binary32 data (R65): a Word is a sign and the 31 bits of a magnitude, and those bits in their
order are the classes zero, finite, infinite and NaN. -/

namespace Sys2Proof.Machine

/-- Bits 30:0, the exponent and the fraction. -/
def magnitudeBits (w : Word) : Nat :=
  w.toNat % 2 ^ 31

/-- R65: how many units of `2^-149` the magnitude bits `p` of a finite number stand for. -/
def patternUnits (p : Nat) : Nat :=
  if p / 2 ^ 23 = 0 then p % 2 ^ 23 else (2 ^ 23 + p % 2 ^ 23) * 2 ^ (p / 2 ^ 23 - 1)

/-- R65: the datum of a sign and magnitude bits. -/
def datumOf (negative : Bool) (p : Nat) : FloatDatum :=
  if p < infinityPattern then .finite negative (patternUnits p)
  else if p = infinityPattern then .infinite negative
  else .nan

section Fields
variable (w : Word)

theorem exponentBits_toNat : (exponentBits w).toNat = floatExponent w := by
  simp [exponentBits, floatExponent, Nat.shiftRight_eq_div_pow]

theorem fractionBits_toNat : (fractionBits w).toNat = floatFraction w := by
  simp [fractionBits, floatFraction]

theorem floatSign_eq_isNegative : floatSign w = isNegative w := by
  simp [floatSign, isNegative, BitVec.msb_eq_decide]

theorem floatExponent_eq : floatExponent w = magnitudeBits w / 2 ^ 23 := by
  unfold floatExponent magnitudeBits; omega

theorem floatFraction_eq : floatFraction w = magnitudeBits w % 2 ^ 23 := by
  unfold floatFraction magnitudeBits; omega

theorem magnitudeBits_lt : magnitudeBits w < 2 ^ 31 :=
  Nat.mod_lt _ (by decide)

/-- A Word is its sign and its magnitude bits. -/
theorem signedPattern_isNegative_magnitudeBits : signedPattern (isNegative w) (magnitudeBits w) = w := by
  refine BitVec.eq_of_toNat_eq ?_
  rw [signedPattern_toNat (magnitudeBits_lt w), word_of_fields w, floatSign_eq_isNegative, floatExponent_eq,
    floatFraction_eq]
  omega

end Fields

section Patterns
variable {negative : Bool} {p : Nat}

theorem isNegative_signedPattern (h : p < 2 ^ 31) : isNegative (signedPattern negative p) = negative := by
  rw [← floatSign_eq_isNegative, floatSign_signedPattern h]

theorem magnitudeBits_signedPattern (h : p < 2 ^ 31) : magnitudeBits (signedPattern negative p) = p := by
  rw [magnitudeBits, signedPattern_toNat h]
  split <;> omega

theorem infinityPattern_lt : infinityPattern < 2 ^ 31 := by decide

theorem infinityWord_eq (negative : Bool) : infinityWord negative = signedPattern negative infinityPattern := by
  cases negative <;> rfl

theorem zeroWord_eq (negative : Bool) : zeroWord negative = signedPattern negative 0 := by
  cases negative <;> rfl

/-- The last bit of a pattern is that of its magnitude. -/
theorem getLsbD_zero_signedPattern (h : p < 2 ^ 31) :
    (signedPattern negative p).getLsbD 0 = decide (p % 2 = 1) := by
  rw [BitVec.getLsbD, Nat.testBit_zero, signedPattern_toNat h]
  cases negative <;> simp [Nat.add_mod]

end Patterns

section Classes
variable {w : Word}

theorem exponentBits_eq_iff {n : Nat} (hn : n < 2 ^ 8) :
    exponentBits w = BitVec.ofNat 8 n ↔ magnitudeBits w / 2 ^ 23 = n := by
  rw [← BitVec.toNat_inj, exponentBits_toNat, floatExponent_eq, BitVec.toNat_ofNat, Nat.mod_eq_of_lt hn]

theorem fractionBits_eq_zero_iff : fractionBits w = 0#23 ↔ magnitudeBits w % 2 ^ 23 = 0 := by
  rw [← BitVec.toNat_inj, fractionBits_toNat, floatFraction_eq, BitVec.toNat_ofNat, Nat.zero_mod]

theorem isFinite_iff : IsFinite w ↔ magnitudeBits w < infinityPattern := by
  have hlt := magnitudeBits_lt w
  rw [IsFinite, Ne, exponentBits_eq_iff (n := 255) (by decide), infinityPattern]
  omega

theorem isInfinite_iff : IsInfinite w ↔ magnitudeBits w = infinityPattern := by
  rw [IsInfinite, exponentBits_eq_iff (n := 255) (by decide), fractionBits_eq_zero_iff, infinityPattern]
  omega

theorem isNaN_iff : IsNaN w ↔ infinityPattern < magnitudeBits w := by
  have hlt := magnitudeBits_lt w
  rw [IsNaN, Ne, exponentBits_eq_iff (n := 255) (by decide), fractionBits_eq_zero_iff, infinityPattern]
  omega

theorem isZero_iff : IsZero w ↔ magnitudeBits w = 0 := by
  rw [IsZero, exponentBits_eq_iff (n := 0) (by decide), fractionBits_eq_zero_iff]
  omega

theorem IsZero.isFinite (h : IsZero w) : IsFinite w := by
  rw [isFinite_iff, isZero_iff.1 h]
  decide

/-- R65: the model's reading of a Word, by its magnitude bits. -/
theorem unpackFloat_eq (w : Word) : unpackFloat w = datumOf (isNegative w) (magnitudeBits w) := by
  have hlt := magnitudeBits_lt w
  have hinf : infinityPattern = 255 * 2 ^ 23 := rfl
  unfold unpackFloat datumOf
  rw [floatSign_eq_isNegative, floatExponent_eq, floatFraction_eq]
  rcases lt_trichotomy (magnitudeBits w) infinityPattern with h | h | h
  · rw [if_neg (show magnitudeBits w / 2 ^ 23 ≠ 255 by omega), if_pos h, patternUnits]
    split_ifs <;> rfl
  · rw [if_pos (show magnitudeBits w / 2 ^ 23 = 255 by omega), if_pos (show magnitudeBits w % 2 ^ 23 = 0 by omega),
      if_neg h.not_lt, if_pos h]
  · rw [if_pos (show magnitudeBits w / 2 ^ 23 = 255 by omega), if_neg (show magnitudeBits w % 2 ^ 23 ≠ 0 by omega),
      if_neg h.not_gt, if_neg h.ne']

theorem unpackFloat_of_isFinite (h : IsFinite w) :
    unpackFloat w = .finite (isNegative w) (patternUnits (magnitudeBits w)) := by
  rw [unpackFloat_eq, datumOf, if_pos (isFinite_iff.1 h)]

theorem unpackFloat_of_isInfinite (h : IsInfinite w) : unpackFloat w = .infinite (isNegative w) := by
  rw [unpackFloat_eq, datumOf, isInfinite_iff.1 h, if_neg (lt_irrefl _), if_pos rfl]

theorem unpackFloat_eq_nan_iff : unpackFloat w = .nan ↔ IsNaN w := by
  rw [unpackFloat_eq, datumOf, isNaN_iff]
  split_ifs <;> simp <;> omega

/-- R70: inverting bit 31 of a Word is inverting the sign of its datum. -/
theorem unpackFloat_xor_sign (w : Word) : unpackFloat (w ^^^ 0x80000000#32) = negateDatum (unpackFloat w) := by
  have hsign : isNegative (w ^^^ 0x80000000#32) = !isNegative w := by
    rw [isNegative, BitVec.msb_xor]
    exact Bool.xor_true _
  have hbits : magnitudeBits (w ^^^ 0x80000000#32) = magnitudeBits w := by
    rw [magnitudeBits, BitVec.toNat_xor, Nat.xor_mod_two_pow]
    exact Nat.xor_zero _
  rw [unpackFloat_eq, unpackFloat_eq, hsign, hbits, datumOf, datumOf]
  split_ifs <;> rfl

end Classes

/-! ### The units of a pattern -/

/-- The patterns of finite numbers are in the order of their values. -/
theorem patternUnits_strictMono : StrictMono patternUnits := by
  refine strictMono_nat_of_lt_succ fun p => ?_
  unfold patternUnits
  by_cases hcarry : p % 2 ^ 23 + 1 = 2 ^ 23
  · have hdiv : (p + 1) / 2 ^ 23 = p / 2 ^ 23 + 1 := by omega
    have hmod : (p + 1) % 2 ^ 23 = 0 := by omega
    rw [hdiv, hmod, if_neg (Nat.succ_ne_zero _), Nat.add_sub_cancel]
    split_ifs with he
    · rw [he]; omega
    · have hpow : 2 ^ (p / 2 ^ 23) = 2 ^ (p / 2 ^ 23 - 1) * 2 := by rw [← pow_succ]; congr 1; omega
      have hpos : 0 < 2 ^ (p / 2 ^ 23 - 1) := by positivity
      rw [hpow]
      generalize 2 ^ (p / 2 ^ 23 - 1) = d at hpos
      rw [show p % 2 ^ 23 = 2 ^ 23 - 1 by omega]
      omega
  · have hdiv : (p + 1) / 2 ^ 23 = p / 2 ^ 23 := by omega
    have hmod : (p + 1) % 2 ^ 23 = p % 2 ^ 23 + 1 := by omega
    rw [hdiv, hmod]
    split_ifs
    · omega
    · exact Nat.mul_lt_mul_of_pos_right (by omega) (by positivity)

theorem patternUnits_eq_zero_iff {p : Nat} : patternUnits p = 0 ↔ p = 0 :=
  patternUnits_strictMono.injective.eq_iff' rfl

/-- R65: `m` times `2^k` units, for `m` of 24 bits that is normalized or has `k = 0`, as a pattern. -/
theorem patternUnits_of_lt {k m : Nat} (hm : m < 2 ^ 24) (hk : k = 0 ∨ 2 ^ 23 ≤ m) :
    patternUnits (k * 2 ^ 23 + m) = m * 2 ^ k := by
  unfold patternUnits
  rcases Nat.lt_or_ge m (2 ^ 23) with hlt | hge
  · obtain rfl : k = 0 := by omega
    rw [if_pos (by omega)]
    omega
  · have hdiv : (k * 2 ^ 23 + m) / 2 ^ 23 = k + 1 := by omega
    have hmod : 2 ^ 23 + (k * 2 ^ 23 + m) % 2 ^ 23 = m := by omega
    rw [hdiv, if_neg (Nat.succ_ne_zero k), hmod, Nat.add_sub_cancel]

/-- Around `2^(23 + k)`, up to its double, the patterns count multiples of `2^k`. -/
theorem patternUnits_scaled {k m : Nat} (hm : m ≤ 2 ^ 24) (hk : k = 0 ∨ 2 ^ 23 ≤ m) :
    patternUnits (k * 2 ^ 23 + m) = m * 2 ^ k := by
  rcases hm.lt_or_eq with hlt | rfl
  · exact patternUnits_of_lt hlt hk
  · rw [show k * 2 ^ 23 + 2 ^ 24 = (k + 1) * 2 ^ 23 + 2 ^ 23 by omega,
      patternUnits_of_lt (by decide) (.inr le_rfl), pow_succ 2 k]
    omega

/-- What the pattern of infinity would stand for: `2^128`, which is `2^277` units. -/
theorem patternUnits_infinityPattern : patternUnits infinityPattern = 2 ^ 25 * 2 ^ 252 :=
  (patternUnits_scaled (k := 253) (m := 2 ^ 24) le_rfl (.inr (by decide))).trans (by norm_num)

/-- The units of a pattern are at most 24 bits, shifted. -/
theorem patternUnits_eq_shifted (p : Nat) :
    ∃ m j, m < 2 ^ 24 ∧ (j = 0 ∨ 2 ^ 23 ≤ m) ∧ p = j * 2 ^ 23 + m ∧ patternUnits p = m * 2 ^ j := by
  obtain ⟨m, j, hm, hj, hp⟩ : ∃ m j, m < 2 ^ 24 ∧ (j = 0 ∨ 2 ^ 23 ≤ m) ∧ p = j * 2 ^ 23 + m := by
    rcases Nat.eq_zero_or_pos (p / 2 ^ 23) with he | he
    · exact ⟨p, 0, by omega, .inl rfl, by omega⟩
    · exact ⟨2 ^ 23 + p % 2 ^ 23, p / 2 ^ 23 - 1, by omega, .inr (by omega), by omega⟩
  exact ⟨m, j, hm, hj, hp, hp ▸ patternUnits_of_lt hm hj⟩

/-- What is representable lies below `2^(23 + k)` or is a multiple of `2^k`: the spacing there is `2^k` or more. -/
theorem patternUnits_lt_or_dvd (k p : Nat) : patternUnits p < 2 ^ (23 + k) ∨ 2 ^ k ∣ patternUnits p := by
  obtain ⟨m, j, hm, -, -, hunits⟩ := patternUnits_eq_shifted p
  rw [hunits]
  rcases Nat.lt_or_ge j k with hlt | hge
  · left
    calc m * 2 ^ j < 2 ^ 24 * 2 ^ j := Nat.mul_lt_mul_of_pos_right hm (by positivity)
      _ = 2 ^ (24 + j) := (pow_add _ _ _).symm
      _ ≤ 2 ^ (23 + k) := Nat.pow_le_pow_right (by decide) (by omega)
  · exact .inr (Dvd.dvd.mul_left (pow_dvd_pow 2 hge) m)

/-- At most 24 bits, shifted, are the units of a pattern. -/
theorem exists_patternUnits_eq (m j : Nat) (hm : m < 2 ^ 24) : ∃ p, patternUnits p = m * 2 ^ j := by
  induction j generalizing m with
  | zero => exact ⟨_, patternUnits_of_lt hm (.inl rfl)⟩
  | succ j ih =>
    rcases Nat.lt_or_ge m (2 ^ 23) with hlt | hge
    · obtain ⟨p, hp⟩ := ih (m * 2) (by omega)
      exact ⟨p, by rw [hp, pow_succ]; ring⟩
    · exact ⟨_, patternUnits_of_lt hm (.inr hge)⟩

end Sys2Proof.Machine
end

section
/-! SUPPORT. The one rounding step (R66) on natural numbers: `num / den` units lie between two multiples of the
spacing `2^k` there, the nearer one is taken, and its units are those of the pattern that `roundMagnitude` gives. -/

namespace Sys2Proof.Machine

/-- `r` is a whole number nearest to `n / d`, and even where another is as near. -/
def IsNearestEven (r n d : Nat) : Prop :=
  2 * (r * d) ≤ 2 * n + d ∧ 2 * n ≤ 2 * (r * d) + d ∧
    ((2 * (r * d) = 2 * n + d ∨ 2 * n = 2 * (r * d) + d) → r % 2 = 0)

section Rounding
variable (num den : Nat)

/-- The `k` of `roundMagnitude`: the representable numbers about `num / den` units are `2^k` units apart. -/
def spacingExponent : Nat :=
  Nat.log2 (num / den) - 23

/-- The spacing `2^k` of those numbers as a fraction over `den`, as `num` is. -/
def scaledSpacing : Nat :=
  den * 2 ^ spacingExponent num den

/-- How many spacings the rounded value is. -/
def roundedMultiple : Nat :=
  divideToNearestEven num (scaledSpacing num den)

/-- The pattern of the rounded value, were there no greatest finite number. -/
def unboundedPattern : Nat :=
  spacingExponent num den * 2 ^ 23 + roundedMultiple num den

theorem roundMagnitude_eq_min : roundMagnitude num den = min (unboundedPattern num den) infinityPattern := rfl

variable {num den}

theorem scaledSpacing_pos (hden : 0 < den) : 0 < scaledSpacing num den :=
  Nat.mul_pos hden (by positivity)

/-- The value has at most 24 bits above the spacing. -/
theorem lt_mul_scaledSpacing (hden : 0 < den) : num < 2 ^ 24 * scaledSpacing num den := by
  have hq : num / den < 2 ^ (24 + spacingExponent num den) :=
    Nat.lt_log2_self.trans_le (Nat.pow_le_pow_right (by decide) (by unfold spacingExponent; omega))
  calc num < 2 ^ (24 + spacingExponent num den) * den := (Nat.div_lt_iff_lt_mul hden).1 hq
    _ = 2 ^ 24 * (den * 2 ^ spacingExponent num den) := by ring

/-- Above the subnormal numbers the value has all of the 24 bits. -/
theorem mul_scaledSpacing_le (hden : 0 < den) :
    spacingExponent num den = 0 ∨ 2 ^ 23 * scaledSpacing num den ≤ num := by
  rcases Nat.eq_zero_or_pos (spacingExponent num den) with hk | hk
  · exact .inl hk
  right
  have hlog : Nat.log2 (num / den) = 23 + spacingExponent num den := by unfold spacingExponent at hk ⊢; omega
  have hne : num / den ≠ 0 := by
    intro h0
    rw [h0, Nat.log2_zero] at hlog
    omega
  have hq : 2 ^ (23 + spacingExponent num den) ≤ num / den := hlog ▸ Nat.log2_self_le hne
  calc 2 ^ 23 * (den * 2 ^ spacingExponent num den) = 2 ^ (23 + spacingExponent num den) * den := by ring
    _ ≤ num := (Nat.le_div_iff_mul_le hden).1 hq

theorem roundedMultiple_spec (hden : 0 < den) :
    IsNearestEven (roundedMultiple num den) num (scaledSpacing num den) :=
  divideToNearestEven_spec num _ (scaledSpacing_pos hden)

theorem roundedMultiple_le (hden : 0 < den) : roundedMultiple num den ≤ 2 ^ 24 := by
  obtain ⟨hle, -, -⟩ := roundedMultiple_spec (num := num) hden
  have hlt := lt_mul_scaledSpacing (num := num) hden
  by_contra hgt
  have : (2 ^ 24 + 1) * scaledSpacing num den ≤ roundedMultiple num den * scaledSpacing num den :=
    Nat.mul_le_mul_right _ (by omega)
  omega

theorem le_roundedMultiple (hden : 0 < den) : spacingExponent num den = 0 ∨ 2 ^ 23 ≤ roundedMultiple num den := by
  refine (mul_scaledSpacing_le (num := num) hden).imp_right fun hlow => ?_
  obtain ⟨-, hle, -⟩ := roundedMultiple_spec (num := num) hden
  have hpos := scaledSpacing_pos (num := num) hden
  by_contra hlt
  have : roundedMultiple num den * scaledSpacing num den ≤ (2 ^ 23 - 1) * scaledSpacing num den :=
    Nat.mul_le_mul_right _ (by omega)
  omega

theorem patternUnits_unboundedPattern (hden : 0 < den) :
    patternUnits (unboundedPattern num den) = roundedMultiple num den * 2 ^ spacingExponent num den :=
  patternUnits_scaled (roundedMultiple_le hden) (le_roundedMultiple hden)

/-- In the last binade, of spacing `2 * d`, the rounded multiple is carried out of 24 bits from `2^24 - 1/2` spacings
on: that is a tie, and `2^24 - 1` is odd. -/
theorem carry_iff {r n d : Nat} (hd : 0 < d) (hspec : IsNearestEven r n (2 * d)) :
    2 ^ 24 ≤ r ↔ (2 ^ 25 - 1) * d ≤ n := by
  obtain ⟨hle, hge, htie⟩ := hspec
  constructor
  · intro hcarry
    have : 2 ^ 24 * (2 * d) ≤ r * (2 * d) := Nat.mul_le_mul_right _ hcarry
    omega
  · intro hbound
    by_contra hlt
    have hlow : r * (2 * d) ≤ (2 ^ 24 - 1) * (2 * d) := Nat.mul_le_mul_right _ (by omega)
    have heven : r % 2 = 0 := htie (.inr (by omega))
    have hlow' : r * (2 * d) ≤ (2 ^ 24 - 2) * (2 * d) := Nat.mul_le_mul_right _ (by omega)
    omega

/-- Log entry 13: where rounding gives infinity: from half a spacing of `2^253` units below `2^277` on. Below the
last binade neither side holds, above it both do, and in it the carry decides. -/
theorem infinityPattern_le_unboundedPattern_iff (hden : 0 < den) :
    infinityPattern ≤ unboundedPattern num den ↔ (2 ^ 25 - 1) * (den * 2 ^ 252) ≤ num := by
  have hr := roundedMultiple_le (num := num) hden
  have hr' := le_roundedMultiple (num := num) hden
  have hnum := lt_mul_scaledSpacing (num := num) hden
  have hnum' := mul_scaledSpacing_le (num := num) hden
  have hspec := roundedMultiple_spec (num := num) hden
  rw [← patternUnits_strictMono.le_iff_le, patternUnits_infinityPattern, patternUnits_unboundedPattern hden]
  unfold scaledSpacing at hnum hnum' hspec
  generalize spacingExponent num den = k at *
  generalize roundedMultiple num den = r at *
  have hbase : 0 < den * 2 ^ 252 := Nat.mul_pos hden (by positivity)
  rcases lt_trichotomy k 253 with hk | rfl | hk
  · have hpow : 2 ^ k ≤ 2 ^ 252 := Nat.pow_le_pow_right (by decide) (by omega)
    have hpos : 0 < 2 ^ 252 := by positivity
    have hunits : r * 2 ^ k ≤ 2 ^ 24 * 2 ^ 252 := Nat.mul_le_mul hr hpow
    have hspacing : den * 2 ^ k ≤ den * 2 ^ 252 := Nat.mul_le_mul_left _ hpow
    omega
  · have hmax : 2 ^ 25 * 2 ^ 252 ≤ r * 2 ^ 253 ↔ 2 ^ 24 ≤ r := by
      rw [show 2 ^ 25 * 2 ^ 252 = 2 ^ 24 * 2 ^ 253 by norm_num]
      exact Nat.mul_le_mul_right_iff (by positivity)
    rw [show den * 2 ^ 253 = 2 * (den * 2 ^ 252) by ring] at hspec
    exact hmax.trans (carry_iff hbase hspec)
  · have hpow : 4 * 2 ^ 252 ≤ 2 ^ k := by
      calc 4 * 2 ^ 252 = 2 ^ 254 := by norm_num
        _ ≤ 2 ^ k := Nat.pow_le_pow_right (by decide) hk
    have hunits : 2 ^ 23 * (4 * 2 ^ 252) ≤ r * 2 ^ k := Nat.mul_le_mul (by omega) hpow
    have hspacing : den * (4 * 2 ^ 252) ≤ den * 2 ^ k := Nat.mul_le_mul_left _ hpow
    omega

end Rounding

theorem divideToNearestEven_of_dvd {num den : Nat} (hden : 0 < den) (h : den ∣ num) :
    divideToNearestEven num den = num / den := by
  simp [divideToNearestEven, Nat.mod_eq_zero_of_dvd h, hden]

/-- A number within half of `d` of `n` is as near to it as one that is `d` away from that number or more; only at
exactly half are the two equally near. -/
theorem abs_sub_le_of_half {q y n d : ℤ} (hle : 2 * q ≤ 2 * n + d) (hge : 2 * n ≤ 2 * q + d)
    (hfar : y + d ≤ q ∨ q + d ≤ y) :
    |q - n| ≤ |y - n| ∧ (|y - n| = |q - n| → 2 * q = 2 * n + d ∨ 2 * n = 2 * q + d) := by
  rcases abs_cases (q - n) with ⟨hq, -⟩ | ⟨hq, -⟩ <;> rcases abs_cases (y - n) with ⟨hy, hs⟩ | ⟨hy, hs⟩ <;>
    rw [hq, hy] <;> omega

/-- The whole number that the division takes is as near to `num / den` as any, and even if another is as near. -/
theorem divideToNearestEven_nearest (num : Nat) {den : Nat} (hden : 0 < den) (m : ℤ) :
    |(divideToNearestEven num den : ℤ) * den - num| ≤ |m * den - num| ∧
      (|m * den - num| = |(divideToNearestEven num den : ℤ) * den - num| → m ≠ divideToNearestEven num den →
        divideToNearestEven num den % 2 = 0) := by
  obtain ⟨hle, hge, htie⟩ := divideToNearestEven_spec num den hden
  generalize divideToNearestEven num den = r at *
  zify at hle hge
  rcases eq_or_ne m r with rfl | hne
  · exact ⟨le_rfl, fun _ h => absurd rfl h⟩
  · have hfar : m * den + den ≤ r * den ∨ (r : ℤ) * den + den ≤ m * den := by
      rcases lt_or_gt_of_ne hne with hlt | hgt
      · exact .inl (by nlinarith)
      · exact .inr (by nlinarith)
    obtain ⟨hnear, heq⟩ := abs_sub_le_of_half hle hge hfar
    exact ⟨hnear, fun h _ => htie (by zify; exact heq h)⟩

section Nearest
variable {num den : Nat}

/-- R66: among the whole numbers of units that are below the binade of `num / den` or are multiples of the spacing
there, the rounded one is nearest, and an even multiple if another is as near. -/
theorem roundedMultiple_nearest (hden : 0 < den) {y : ℤ}
    (hy : |y| < 2 ^ (23 + spacingExponent num den) ∨ 2 ^ spacingExponent num den ∣ y) :
    |(roundedMultiple num den * 2 ^ spacingExponent num den : ℤ) * den - num| ≤ |y * den - num| ∧
      (|y * den - num| = |(roundedMultiple num den * 2 ^ spacingExponent num den : ℤ) * den - num| →
        y ≠ roundedMultiple num den * 2 ^ spacingExponent num den → roundedMultiple num den % 2 = 0) := by
  have hnear := divideToNearestEven_nearest num (scaledSpacing_pos (num := num) hden)
  have hlow := mul_scaledSpacing_le (num := num) hden
  rw [← roundedMultiple] at hnear
  unfold scaledSpacing at hnear hlow
  generalize spacingExponent num den = k at *
  generalize roundedMultiple num den = r at *
  have hscale (m : ℤ) : m * ((den * 2 ^ k : ℕ) : ℤ) = m * 2 ^ k * den := by push_cast; ring
  simp only [hscale] at hnear
  by_cases hdvd : (2 : ℤ) ^ k ∣ y
  · obtain ⟨m, rfl⟩ := hdvd
    obtain ⟨hle, htie⟩ := hnear m
    rw [mul_comm ((2 : ℤ) ^ k) m]
    exact ⟨hle, fun heq hne => htie heq fun hm => hne (by rw [hm])⟩
  · have hbelow : 2 ^ 23 * (den * 2 ^ k) ≤ num := hlow.resolve_left fun hk => hdvd (by simp [hk])
    have hlt : y < 2 ^ (23 + k) := (abs_lt.1 (hy.resolve_right hdvd)).2
    have hfirst : (2 ^ 23 : ℤ) * 2 ^ k * den ≤ num := by zify at hbelow; linarith
    have hstrict : y * den < 2 ^ 23 * 2 ^ k * den := by
      rw [← pow_add]
      exact mul_lt_mul_of_pos_right hlt (by exact_mod_cast hden)
    obtain ⟨hle, -⟩ := hnear (2 ^ 23)
    rw [abs_of_nonpos (by linarith : (2 ^ 23 : ℤ) * 2 ^ k * den - num ≤ 0)] at hle
    rw [abs_of_neg (by linarith : y * den - num < 0)]
    exact ⟨by linarith, fun heq => by linarith⟩

end Nearest

/-- A value that is the units of a finite pattern is rounded to that pattern. -/
theorem roundMagnitude_patternUnits {p : Nat} (hp : p ≤ infinityPattern) :
    roundMagnitude (patternUnits p) 1 = p := by
  have hdvd : 2 ^ spacingExponent (patternUnits p) 1 ∣ patternUnits p := by
    rcases patternUnits_lt_or_dvd (spacingExponent (patternUnits p) 1) p with hlt | hdvd
    · have hk : spacingExponent (patternUnits p) 1 = 0 := by
        refine (mul_scaledSpacing_le (num := patternUnits p) Nat.one_pos).resolve_right fun hle => ?_
        rw [scaledSpacing, one_mul, ← pow_add] at hle
        exact absurd hlt hle.not_gt
      simp [hk]
    · exact hdvd
  have hexact : roundedMultiple (patternUnits p) 1 * 2 ^ spacingExponent (patternUnits p) 1 = patternUnits p := by
    rw [roundedMultiple, scaledSpacing, one_mul, divideToNearestEven_of_dvd (by positivity) hdvd,
      Nat.div_mul_cancel hdvd]
  rw [roundMagnitude_eq_min, patternUnits_strictMono.injective
    ((patternUnits_unboundedPattern Nat.one_pos).trans hexact), min_eq_left hp]

theorem roundMagnitude_zero (den : Nat) : roundMagnitude 0 den = 0 := by
  simp [roundMagnitude, divideToNearestEven]

/-! ### Signs -/

/-- The factor that a sign stands for. -/
def signFactor (negative : Bool) : ℤ :=
  if negative then -1 else 1

theorem signedUnits_eq (negative : Bool) (units : Nat) : signedUnits negative units = signFactor negative * units := by
  cases negative <;> simp [signedUnits, signFactor]

theorem signFactor_xor (n m : Bool) : signFactor (n ^^ m) = signFactor n * signFactor m := by
  cases n <;> cases m <;> rfl

theorem signFactor_not (n : Bool) : signFactor (!n) = -signFactor n := by
  cases n <;> rfl

theorem signFactor_mul_self (n : Bool) : signFactor n * signFactor n = 1 := by
  cases n <;> rfl

theorem abs_signFactor (n : Bool) : |signFactor n| = 1 := by
  cases n <;> rfl

theorem abs_signFactor_mul (n : Bool) (x : ℚ) : |(signFactor n : ℚ) * x| = |x| := by
  cases n <;> simp [signFactor]

/-- R65: the number a Word stands for, in units of `2^-149`. -/
theorem f32_eq (w : Word) :
    f32 w = signFactor (isNegative w) * patternUnits (magnitudeBits w) / 2 ^ 149 := by
  have hexp : exponentBits w = 0#8 ↔ magnitudeBits w / 2 ^ 23 = 0 := exponentBits_eq_iff (n := 0) (by decide)
  have hmagnitude : (if exponentBits w = 0#8 then ((fractionBits w).toNat / 2 ^ 23 : ℚ) * 2 ^ (-126 : ℤ)
      else (1 + (fractionBits w).toNat / 2 ^ 23 : ℚ) * 2 ^ (((exponentBits w).toNat : ℤ) - 127)) =
      patternUnits (magnitudeBits w) / 2 ^ 149 := by
    rw [fractionBits_toNat, exponentBits_toNat, floatFraction_eq, floatExponent_eq, patternUnits]
    split_ifs with h0 he he
    · norm_num; ring
    · exact absurd (hexp.1 h0) he
    · exact absurd (hexp.2 he) h0
    · obtain ⟨e, hsucc⟩ := Nat.exists_eq_succ_of_ne_zero he
      rw [hsucc]
      push_cast
      rw [show ((e : ℤ) + 1 - 127) = e + 23 - 149 by ring, zpow_sub₀ two_ne_zero, zpow_add₀ two_ne_zero]
      norm_num
      ring
  unfold f32
  dsimp only
  rw [hmagnitude]
  cases isNegative w <;> simp [signFactor, neg_div]

theorem f32_eq_zero_iff {w : Word} : f32 w = 0 ↔ magnitudeBits w = 0 := by
  rw [f32_eq]
  cases isNegative w <;> simp [signFactor, patternUnits_eq_zero_iff]

end Sys2Proof.Machine
end

section
/-! SUPPORT. The rounding step meets `RoundsToNearestEven`, which is said of rational numbers (R66). -/

namespace Sys2Proof.Machine

section Distances
variable {num den : Nat}

/-- The distance from `num / den` units of one sign to `y` units counted with that sign. -/
theorem abs_sub_units (negative : Bool) (hden : 0 < den) (y : ℤ) :
    |(signFactor negative * y / 2 ^ 149 : ℚ) - signFactor negative * (num / den) / 2 ^ 149| =
      ((|y * den - num| : ℤ) : ℚ) / (den * 2 ^ 149) := by
  have hpos : (0 : ℚ) < den * 2 ^ 149 := by positivity
  have hfactor : (signFactor negative * y / 2 ^ 149 : ℚ) - signFactor negative * (num / den) / 2 ^ 149 =
      signFactor negative * ((y * den - num : ℤ) / (den * 2 ^ 149)) := by
    have : (den : ℚ) ≠ 0 := by positivity
    push_cast
    field_simp
  rw [hfactor, abs_signFactor_mul, abs_div, abs_of_pos hpos, Int.cast_abs]

/-- The number of a Word in units, counted with the given sign. -/
theorem f32_eq_with_sign (negative : Bool) (w : Word) :
    f32 w = signFactor negative *
      (signFactor negative * signFactor (isNegative w) * patternUnits (magnitudeBits w) : ℤ) / 2 ^ 149 := by
  have hself : (signFactor negative * signFactor negative : ℚ) = 1 := by exact_mod_cast signFactor_mul_self negative
  rw [f32_eq]
  push_cast
  linear_combination (-(signFactor (isNegative w) * patternUnits (magnitudeBits w) / 2 ^ 149 : ℚ)) * hself

/-- A Word's units, counted with either sign, are below a binade or a multiple of its spacing. -/
theorem signed_units_lt_or_dvd (k : Nat) (n m : Bool) (p : Nat) :
    |signFactor n * signFactor m * (patternUnits p : ℤ)| < 2 ^ (23 + k) ∨
      (2 : ℤ) ^ k ∣ signFactor n * signFactor m * (patternUnits p : ℤ) := by
  rw [abs_mul, abs_mul, abs_signFactor, abs_signFactor, one_mul, one_mul, Nat.abs_cast]
  refine (patternUnits_lt_or_dvd k p).imp (fun h => by exact_mod_cast h) fun h => ?_
  exact Dvd.dvd.mul_left (by exact_mod_cast h) _

theorem decide_signed_quotient_neg (negative : Bool) (hnum : 0 < num) (hden : 0 < den) :
    decide ((signFactor negative * (num / den) / 2 ^ 149 : ℚ) < 0) = negative := by
  have hpos : (0 : ℚ) < num / den := by positivity
  cases negative
  · simp [signFactor]; positivity
  · simp [signFactor, neg_div, hpos]

/-- Log entry 13: the boundary of `RoundsToNearestEven` in units. -/
theorem overflow_iff (negative : Bool) (hden : 0 < den) :
    (2 ^ 128 - 2 ^ 103 : ℚ) ≤ |(signFactor negative * (num / den) / 2 ^ 149 : ℚ)| ↔
      (2 ^ 25 - 1) * (den * 2 ^ 252) ≤ num := by
  have hpos : (0 : ℚ) < den := by positivity
  have hvalue : (0 : ℚ) ≤ num / den / 2 ^ 149 := by positivity
  rw [mul_div_assoc, abs_signFactor_mul, abs_of_nonneg hvalue, le_div_iff₀ (by positivity), le_div_iff₀ hpos,
    ← Nat.cast_le (α := ℚ)]
  push_cast
  constructor <;> intro h <;> linarith

end Distances

/-- R66: the pattern of `num / den` units of a sign is that number correctly rounded. -/
theorem roundsToNearestEven_roundedPattern (negative : Bool) {num den : Nat} (hnum : 0 < num) (hden : 0 < den) :
    RoundsToNearestEven (signFactor negative * (num / den) / 2 ^ 149) (roundedPattern negative num den) := by
  unfold RoundsToNearestEven roundedPattern
  rw [decide_signed_quotient_neg negative hnum hden, roundMagnitude_eq_min]
  split_ifs with hover
  · rw [overflow_iff negative hden, ← infinityPattern_le_unboundedPattern_iff hden] at hover
    rw [min_eq_right hover, infinityWord_eq]
  · rw [overflow_iff negative hden, ← infinityPattern_le_unboundedPattern_iff hden, not_le] at hover
    have hp : unboundedPattern num den < 2 ^ 31 := hover.trans infinityPattern_lt
    rw [min_eq_left hover.le]
    refine ⟨isFinite_iff.2 (by rwa [magnitudeBits_signedPattern hp]), isNegative_signedPattern hp, fun w _ => ?_⟩
    have hr : f32 (signedPattern negative (unboundedPattern num den)) = signFactor negative *
        (roundedMultiple num den * 2 ^ spacingExponent num den : ℤ) / 2 ^ 149 := by
      rw [f32_eq, isNegative_signedPattern hp, magnitudeBits_signedPattern hp, patternUnits_unboundedPattern hden]
      push_cast
      rfl
    obtain ⟨hnear, htie⟩ := roundedMultiple_nearest (num := num) hden
      (signed_units_lt_or_dvd (spacingExponent num den) negative (isNegative w) (magnitudeBits w))
    have hscale : (0 : ℚ) < den * 2 ^ 149 := by positivity
    rw [hr, f32_eq_with_sign negative w, abs_sub_units negative hden, abs_sub_units negative hden,
      div_le_div_iff_of_pos_right hscale, div_left_inj' hscale.ne', Int.cast_le, Int.cast_inj]
    refine ⟨hnear, fun heq hne => ?_⟩
    have heven := htie heq fun hy => hne (by rw [hy])
    rw [getLsbD_zero_signedPattern hp, decide_eq_false_iff_not, unboundedPattern]
    omega

end Sys2Proof.Machine
end

section
/-! SUPPORT. The results of the five functions on finite operands, as rational numbers (R66, R68). -/

namespace Sys2Proof.Machine

section Rounded
variable {num den : Nat} {x : ℚ}

theorem roundedPattern_zero (negative : Bool) (den : Nat) : roundedPattern negative 0 den = zeroWord negative := by
  rw [roundedPattern, roundMagnitude_zero, zeroWord_eq]

/-- R66: a number is correctly rounded, and an exact zero keeps its sign. -/
theorem roundedPattern_rounds_or_zero (negative : Bool) (hden : 0 < den)
    (hx : x = signFactor negative * (num / den) / 2 ^ 149) :
    (x ≠ 0 → RoundsToNearestEven x (roundedPattern negative num den)) ∧
      (x = 0 → roundedPattern negative num den = zeroWord negative) := by
  have hzero : x = 0 ↔ num = 0 := by
    rw [hx]
    cases negative <;> simp [signFactor, hden.ne']
  refine ⟨fun hne => ?_, fun heq => ?_⟩
  · rw [hx]
    exact roundsToNearestEven_roundedPattern negative (Nat.pos_of_ne_zero (mt hzero.2 hne)) hden
  · rw [hzero.1 heq, roundedPattern_zero]

/-- A whole number of units as its sign and its absolute value. -/
theorem signFactor_mul_abs (z : ℤ) : signFactor (decide (z < 0)) * |z| = z := by
  by_cases h : z < 0
  · simp [signFactor, h, abs_of_neg h]
  · simp [signFactor, h, abs_of_nonneg (not_lt.1 h)]

/-- R66: the sum of two finite numbers. -/
theorem sumOf_finite (n m : Bool) (u v : Nat) (d : Word)
    (hx : x = (signFactor n * u : ℚ) / 2 ^ 149 + (signFactor m * v : ℚ) / 2 ^ 149) :
    (x ≠ 0 → RoundsToNearestEven x ((sumOf (.finite n u) (.finite m v)).getD d)) ∧
      (x = 0 → (sumOf (.finite n u) (.finite m v)).getD d = zeroWord (n && m)) := by
  obtain ⟨z, hz⟩ : ∃ z, z = signedUnits n u + signedUnits m v := ⟨_, rfl⟩
  have hxz : x = z / 2 ^ 149 := by
    rw [hx, hz, signedUnits_eq, signedUnits_eq]
    push_cast
    ring
  have hzero : x = 0 ↔ z = 0 := by rw [hxz]; simp
  simp only [sumOf, ← hz]
  refine ⟨fun hne => ?_, fun heq => ?_⟩
  · have hrounded : x = signFactor (decide (z < 0)) * ((z.natAbs : ℕ) / (1 : ℕ)) / 2 ^ 149 := by
      rw [hxz, Nat.cast_one, div_one, Nat.cast_natAbs, ← Int.cast_mul, signFactor_mul_abs]
    rw [if_neg (mt hzero.2 hne), Option.getD_some]
    exact (roundedPattern_rounds_or_zero _ Nat.one_pos hrounded).1 hne
  · rw [if_pos (hzero.1 heq), Option.getD_some, zeroWord_eq]

end Rounded

section Finite
variable {a b : Word}

theorem f32_ne_zero_iff : f32 b ≠ 0 ↔ patternUnits (magnitudeBits b) ≠ 0 :=
  not_congr (f32_eq_zero_iff.trans patternUnits_eq_zero_iff.symm)

theorem fsub_of_isFinite (ha : IsFinite a) (hb : IsFinite b) :
    fsub a b = (sumOf (.finite (isNegative a) (patternUnits (magnitudeBits a)))
      (.finite (!isNegative b) (patternUnits (magnitudeBits b)))).getD (nanResult .fsub a b) := by
  rw [fsub, unpackFloat_of_isFinite ha, unpackFloat_of_isFinite hb, negateDatum]

theorem fadd_of_isFinite (ha : IsFinite a) (hb : IsFinite b) :
    fadd a b = (sumOf (.finite (isNegative a) (patternUnits (magnitudeBits a)))
      (.finite (isNegative b) (patternUnits (magnitudeBits b)))).getD (nanResult .fadd a b) := by
  rw [fadd, unpackFloat_of_isFinite ha, unpackFloat_of_isFinite hb]

theorem fmul_of_isFinite (ha : IsFinite a) (hb : IsFinite b) :
    fmul a b = roundedPattern (isNegative a ^^ isNegative b)
      (patternUnits (magnitudeBits a) * patternUnits (magnitudeBits b)) (2 ^ 149) := by
  rw [fmul, unpackFloat_of_isFinite ha, unpackFloat_of_isFinite hb, productOf, Option.getD_some]

theorem fdiv_of_isFinite (ha : IsFinite a) (hb : IsFinite b) (hne : patternUnits (magnitudeBits b) ≠ 0) :
    fdiv a b = roundedPattern (isNegative a ^^ isNegative b)
      (patternUnits (magnitudeBits a) * 2 ^ 149) (patternUnits (magnitudeBits b)) := by
  rw [fdiv, unpackFloat_of_isFinite ha, unpackFloat_of_isFinite hb, quotientOf, if_neg hne, Option.getD_some]

theorem frem_of_isFinite (ha : IsFinite a) (hb : IsFinite b) (hne : patternUnits (magnitudeBits b) ≠ 0) :
    frem a b = roundedPattern (isNegative a)
      (patternUnits (magnitudeBits a) % patternUnits (magnitudeBits b)) 1 := by
  rw [frem, unpackFloat_of_isFinite ha, unpackFloat_of_isFinite hb, remainderOf, if_neg hne, Option.getD_some]

theorem roundedPattern_patternUnits {negative : Bool} {p : Nat} (hp : p ≤ infinityPattern) :
    roundedPattern negative (patternUnits p) 1 = signedPattern negative p := by
  rw [roundedPattern, roundMagnitude_patternUnits hp]

theorem mul_mod_lt_shifted {m₁ j₁ m₂ j₂ : Nat} (h₁ : m₁ < 2 ^ 24) (h₂ : m₂ < 2 ^ 24) (hpos : 0 < m₂ * 2 ^ j₂) :
    ∃ m j, m < 2 ^ 24 ∧ m₁ * 2 ^ j₁ % (m₂ * 2 ^ j₂) = m * 2 ^ j := by
  rcases Nat.le_total j₁ j₂ with hle | hle
  · obtain ⟨d, rfl⟩ := Nat.exists_eq_add_of_le hle
    refine ⟨m₁ % (m₂ * 2 ^ d), j₁, (Nat.mod_le _ _).trans_lt h₁, ?_⟩
    rw [← Nat.mul_mod_mul_right, pow_add, mul_comm (2 ^ j₁), mul_assoc]
  · obtain ⟨d, rfl⟩ := Nat.exists_eq_add_of_le hle
    refine ⟨m₁ * 2 ^ d % m₂, j₂, (Nat.mod_lt _ (Nat.pos_of_mul_pos_right hpos)).trans h₂, ?_⟩
    rw [← Nat.mul_mod_mul_right, pow_add, mul_comm (2 ^ j₂), mul_assoc]

/-- R68: the remainder of two finite numbers is itself representable, so that it is exact. -/
theorem exists_patternUnits_mod (p : Nat) {q : Nat} (hq : 0 < patternUnits q) :
    ∃ r, r ≤ p ∧ patternUnits r = patternUnits p % patternUnits q := by
  obtain ⟨m₁, j₁, h₁, -, -, hp⟩ := patternUnits_eq_shifted p
  obtain ⟨m₂, j₂, h₂, -, -, hq'⟩ := patternUnits_eq_shifted q
  obtain ⟨m, j, hm, hmod⟩ := mul_mod_lt_shifted (j₁ := j₁) h₁ h₂ (hq' ▸ hq)
  obtain ⟨r, hr⟩ := exists_patternUnits_eq m j hm
  have hr' : patternUnits r = patternUnits p % patternUnits q := by rw [hr, hp, hq', hmod]
  exact ⟨r, patternUnits_strictMono.le_iff_le.1 (hr' ▸ Nat.mod_le _ _), hr'⟩

/-- R68: truncation of a signed quotient is the quotient of the natural numbers with the sign. -/
theorem truncated_signed_quotient (negative : Bool) (u v : Nat) :
    truncated (signFactor negative * ((u : ℚ) / v)) = signFactor negative * (u / v : ℕ) := by
  have hfloor : ⌊(u : ℚ) / v⌋ = (u / v : ℕ) := by exact_mod_cast Rat.floor_natCast_div_natCast u v
  have hpos : (0 : ℚ) ≤ u / v := by positivity
  unfold truncated
  cases negative
  · simp [signFactor, hpos, hfloor]
  · rw [signFactor, if_pos rfl, Int.cast_neg, Int.cast_one, neg_one_mul, neg_one_mul]
    split_ifs with hneg
    · have hzero : (u : ℚ) / v = 0 := by linarith
      rw [hzero, Int.floor_zero] at hfloor
      rw [hzero, ← hfloor, neg_zero, Int.floor_zero, neg_zero]
    · rw [Int.ceil_neg, hfloor]

end Finite

end Sys2Proof.Machine
end

section
/-! SUPPORT. When a result is a NaN, an infinity or a zero (R66, R67), by the data of the operands. -/

namespace Sys2Proof.Machine

section NaNs
variable {d e : FloatDatum} {w : Word}

theorem isNaN_nanResult (op : FloatOp) (a b : Word) : IsNaN (nanResult op a b) := by
  obtain ⟨hexp, hfrac⟩ := nanPattern_fields (Config.nanSign op a b) (Config.nanPayload op a b)
  refine ⟨BitVec.eq_of_toNat_eq (by rw [exponentBits_toNat]; exact hexp), fun h => hfrac ?_⟩
  rw [← fractionBits_toNat]
  exact congrArg BitVec.toNat h

/-- An answer that is no NaN Word: `none` alone stands for a NaN result. -/
def NoNaN (o : Option Word) : Prop :=
  ∀ w, o = some w → ¬ IsNaN w

theorem noNaN_none : NoNaN none := nofun

theorem noNaN_signedPattern (negative : Bool) {p : Nat} (hp : p ≤ infinityPattern) :
    NoNaN (some (signedPattern negative p)) := by
  rintro _ ⟨⟩
  rw [isNaN_iff, magnitudeBits_signedPattern (hp.trans_lt infinityPattern_lt)]
  exact hp.not_gt

theorem noNaN_infinity (negative : Bool) : NoNaN (some (signedPattern negative infinityPattern)) :=
  noNaN_signedPattern negative le_rfl

theorem noNaN_zero (negative : Bool) : NoNaN (some (signedPattern negative 0)) :=
  noNaN_signedPattern negative (Nat.zero_le _)

theorem noNaN_rounded (negative : Bool) (num den : Nat) : NoNaN (some (roundedPattern negative num den)) :=
  noNaN_signedPattern negative (roundMagnitude_le num den)

theorem noNaN_ite {p : Prop} [Decidable p] {o o' : Option Word} (h : NoNaN o) (h' : NoNaN o') :
    NoNaN (if p then o else o') := by
  split_ifs
  · exact h
  · exact h'

theorem sumOf_noNaN (d e : FloatDatum) : NoNaN (sumOf d e) := by
  match d, e with
  | .nan, _ | .infinite _, .nan | .finite _ _, .nan => exact noNaN_none
  | .infinite _, .infinite _ => exact noNaN_ite (noNaN_infinity _) noNaN_none
  | .infinite _, .finite _ _ | .finite _ _, .infinite _ => exact noNaN_infinity _
  | .finite _ _, .finite _ _ => exact noNaN_ite (noNaN_zero _) (noNaN_rounded _ _ _)

theorem productOf_noNaN (d e : FloatDatum) : NoNaN (productOf d e) := by
  match d, e with
  | .nan, _ | .infinite _, .nan | .finite _ _, .nan => exact noNaN_none
  | .infinite _, .infinite _ => exact noNaN_infinity _
  | .infinite _, .finite _ _ | .finite _ _, .infinite _ => exact noNaN_ite noNaN_none (noNaN_infinity _)
  | .finite _ _, .finite _ _ => exact noNaN_rounded _ _ _

theorem quotientOf_noNaN (d e : FloatDatum) : NoNaN (quotientOf d e) := by
  match d, e with
  | .nan, _ | .infinite _, .nan | .finite _ _, .nan | .infinite _, .infinite _ => exact noNaN_none
  | .infinite _, .finite _ _ => exact noNaN_infinity _
  | .finite _ _, .infinite _ => exact noNaN_zero _
  | .finite _ _, .finite _ _ =>
    exact noNaN_ite (noNaN_ite noNaN_none (noNaN_infinity _)) (noNaN_rounded _ _ _)

theorem remainderOf_noNaN (d e : FloatDatum) : NoNaN (remainderOf d e) := by
  match d, e with
  | .nan, _ | .infinite _, _ | .finite _ _, .nan => exact noNaN_none
  | .finite _ _, .infinite _ => exact noNaN_rounded _ _ _
  | .finite _ _, .finite _ _ => exact noNaN_ite noNaN_none (noNaN_rounded _ _ _)

/-- R67: a result is a NaN exactly when the operation has no answer. -/
theorem isNaN_getD_nanResult_iff {o : Option Word} (ho : NoNaN o) (op : FloatOp) (a b : Word) :
    IsNaN (o.getD (nanResult op a b)) ↔ o = none := by
  cases o with
  | none => exact iff_of_true (isNaN_nanResult op a b) rfl
  | some w => exact iff_of_false (ho w rfl) nofun

/-- R67: the sum has no answer for a NaN operand and for infinities of opposite signs. -/
theorem sumOf_eq_none_iff :
    sumOf d e = none ↔ d = .nan ∨ e = .nan ∨ ∃ n m, d = .infinite n ∧ e = .infinite m ∧ n ≠ m := by
  match d, e with
  | .nan, _ | .infinite _, .nan | .finite _ _, .nan | .infinite _, .infinite _ | .infinite _, .finite _ _
  | .finite _ _, .infinite _ => simp [sumOf]
  | .finite _ _, .finite _ _ => simp only [sumOf]; split_ifs <;> simp

/-- R67: the product has no answer for a NaN operand and for zero times infinity. -/
theorem productOf_eq_none_iff :
    productOf d e = none ↔ d = .nan ∨ e = .nan ∨ (∃ n m, d = .finite n 0 ∧ e = .infinite m) ∨
      ∃ n m, d = .infinite n ∧ e = .finite m 0 := by
  cases d <;> cases e <;> simp [productOf]

/-- R67: the quotient has no answer for a NaN operand, for two zeros and for two infinities. -/
theorem quotientOf_eq_none_iff :
    quotientOf d e = none ↔ d = .nan ∨ e = .nan ∨ (∃ n m, d = .finite n 0 ∧ e = .finite m 0) ∨
      ∃ n m, d = .infinite n ∧ e = .infinite m := by
  match d, e with
  | .nan, _ | .infinite _, .nan | .finite _ _, .nan | .infinite _, .infinite _ | .infinite _, .finite _ _
  | .finite _ _, .infinite _ => simp [quotientOf]
  | .finite _ _, .finite _ _ => simp only [quotientOf]; split_ifs <;> simp_all

/-- R68: the remainder has no answer for a NaN operand, for an infinite dividend and for a zero divisor. -/
theorem remainderOf_eq_none_iff :
    remainderOf d e = none ↔ d = .nan ∨ e = .nan ∨ (∃ n, d = .infinite n) ∨ ∃ m, e = .finite m 0 := by
  cases d <;> cases e <;> simp [remainderOf]

theorem negateDatum_eq_nan_iff : negateDatum d = .nan ↔ d = .nan := by
  cases d <;> simp [negateDatum]

/-- R67: the difference has no answer for a NaN operand and for infinities of equal signs. -/
theorem sumOf_negateDatum_eq_none_iff :
    sumOf d (negateDatum e) = none ↔ d = .nan ∨ e = .nan ∨ ∃ n, d = .infinite n ∧ e = .infinite n := by
  rw [sumOf_eq_none_iff, negateDatum_eq_nan_iff]
  cases e with
  | nan | finite => simp [negateDatum]
  | infinite m => cases m <;> simp [negateDatum]

end NaNs

section Words
variable {w : Word} {n : Bool}

theorem unpackFloat_eq_infinite_iff : unpackFloat w = .infinite n ↔ IsInfinite w ∧ isNegative w = n := by
  rw [unpackFloat_eq, datumOf, isInfinite_iff]
  split_ifs with hlt heq
  · simp [hlt.ne]
  · simp [heq]
  · simp [heq]

theorem unpackFloat_eq_zero_iff : unpackFloat w = .finite n 0 ↔ IsZero w ∧ isNegative w = n := by
  rw [unpackFloat_eq, datumOf, isZero_iff]
  split_ifs with hlt heq
  · simp [patternUnits_eq_zero_iff, and_comm]
  · simp [heq, infinityPattern]
  · simp; omega

theorem signedPattern_of_isInfinite (h : IsInfinite w) : signedPattern (isNegative w) infinityPattern = w := by
  rw [← isInfinite_iff.1 h, signedPattern_isNegative_magnitudeBits]

theorem patternUnits_ne_zero (h : ¬ IsZero w) : patternUnits (magnitudeBits w) ≠ 0 :=
  mt patternUnits_eq_zero_iff.1 (mt isZero_iff.2 h)

/-- R65: a Word that is no NaN is infinite or finite. -/
theorem isInfinite_or_isFinite (h : ¬ IsNaN w) : IsInfinite w ∨ IsFinite w := by
  rw [isInfinite_iff, isFinite_iff]
  rw [isNaN_iff] at h
  omega

theorem f32_signedPattern {p : Nat} (hp : p < 2 ^ 31) :
    f32 (signedPattern n p) = signFactor n * patternUnits p / 2 ^ 149 := by
  rw [f32_eq, isNegative_signedPattern hp, magnitudeBits_signedPattern hp]

/-- The quotient of two numbers is that of their units, with the exclusive-or of the signs. -/
theorem f32_div_f32 (a b : Word) : f32 a / f32 b = signFactor (isNegative a ^^ isNegative b) *
    ((patternUnits (magnitudeBits a) : ℚ) / patternUnits (magnitudeBits b)) := by
  rw [f32_eq a, f32_eq b, signFactor_xor, div_div_div_cancel_right₀ (by positivity), mul_div_mul_comm]
  have hsign : (signFactor (isNegative a) / signFactor (isNegative b) : ℚ) =
      signFactor (isNegative a) * signFactor (isNegative b) := by
    cases isNegative b <;> simp [signFactor, div_neg]
  rw [hsign, Int.cast_mul]

/-- R68: truncated division of two numbers takes from the dividend's units all but their remainder. -/
theorem f32_sub_mul_truncated (a b : Word) :
    f32 a - f32 b * truncated (f32 a / f32 b) = signFactor (isNegative a) *
      (patternUnits (magnitudeBits a) % patternUnits (magnitudeBits b) : ℕ) / 2 ^ 149 := by
  have hself : (signFactor (isNegative b) * signFactor (isNegative b) : ℚ) = 1 := by
    exact_mod_cast signFactor_mul_self (isNegative b)
  rw [f32_div_f32, truncated_signed_quotient, f32_eq a, f32_eq b, signFactor_xor]
  generalize patternUnits (magnitudeBits a) = u
  generalize patternUnits (magnitudeBits b) = v
  have hdivmod : (u : ℚ) = v * (u / v : ℕ) + (u % v : ℕ) := by exact_mod_cast (Nat.div_add_mod u v).symm
  simp only [Int.cast_mul, Int.cast_natCast]
  linear_combination (signFactor (isNegative a) / 2 ^ 149 : ℚ) * hdivmod -
    (signFactor (isNegative a) * v * (u / v : ℕ) / 2 ^ 149 : ℚ) * hself

/-- R68: the remainder of finite numbers, as a pattern with the dividend's sign. -/
theorem frem_eq_signedPattern {a b : Word} (ha : IsFinite a) (hb : IsFinite b)
    (hne : patternUnits (magnitudeBits b) ≠ 0) :
    ∃ r, r ≤ magnitudeBits a ∧ patternUnits r = patternUnits (magnitudeBits a) % patternUnits (magnitudeBits b) ∧
      frem a b = signedPattern (isNegative a) r := by
  obtain ⟨r, hle, hr⟩ := exists_patternUnits_mod (magnitudeBits a) (Nat.pos_of_ne_zero hne)
  refine ⟨r, hle, hr, ?_⟩
  rw [frem_of_isFinite ha hb hne, ← hr, roundedPattern_patternUnits (hle.trans (isFinite_iff.1 ha).le)]

end Words

end Sys2Proof.Machine
end

section
/-! The statements about float arithmetic (spec/45_float_arith.md). -/

namespace Sys2Proof.Machine

/-- Settles O42: the sum of signed units, rounded once; a difference is the sum with the other sign. -/
theorem floatSumAndDifferenceAreCorrectlyRounded : Obligations.FloatSumAndDifferenceAreCorrectlyRounded := by
  unfold Obligations.FloatSumAndDifferenceAreCorrectlyRounded
  intro a b ha hb
  have hsum : f32 a + f32 b = signFactor (isNegative a) * patternUnits (magnitudeBits a) / 2 ^ 149 +
      signFactor (isNegative b) * patternUnits (magnitudeBits b) / 2 ^ 149 := by
    rw [f32_eq a, f32_eq b]
  have hdifference : f32 a - f32 b = signFactor (isNegative a) * patternUnits (magnitudeBits a) / 2 ^ 149 +
      signFactor (!isNegative b) * patternUnits (magnitudeBits b) / 2 ^ 149 := by
    rw [f32_eq a, f32_eq b, signFactor_not]
    push_cast
    ring
  rw [fadd_of_isFinite ha hb, fsub_of_isFinite ha hb]
  obtain ⟨hadd, hadd_zero⟩ := sumOf_finite _ _ _ _ (nanResult .fadd a b) hsum
  obtain ⟨hsub, hsub_zero⟩ := sumOf_finite _ _ _ _ (nanResult .fsub a b) hdifference
  exact ⟨hadd, hadd_zero, hsub, hsub_zero⟩

/-- Settles O43: product and quotient as one fraction of units with the exclusive-or of the signs, rounded once. -/
theorem floatProductAndQuotientAreCorrectlyRounded : Obligations.FloatProductAndQuotientAreCorrectlyRounded := by
  unfold Obligations.FloatProductAndQuotientAreCorrectlyRounded
  intro a b ha hb
  have hproduct : f32 a * f32 b = signFactor (isNegative a ^^ isNegative b) *
      ((patternUnits (magnitudeBits a) * patternUnits (magnitudeBits b) : ℕ) / (2 ^ 149 : ℕ)) / 2 ^ 149 := by
    rw [f32_eq a, f32_eq b, signFactor_xor]
    push_cast
    ring
  obtain ⟨hmul, hmul_zero⟩ := roundedPattern_rounds_or_zero _ (by positivity) hproduct
  have hdiv (hb0 : f32 b ≠ 0) : (f32 a / f32 b ≠ 0 → RoundsToNearestEven (f32 a / f32 b) (fdiv a b)) ∧
      (f32 a / f32 b = 0 → fdiv a b = zeroWord (isNegative a ^^ isNegative b)) := by
    have hne := f32_ne_zero_iff.1 hb0
    rw [fdiv_of_isFinite ha hb hne]
    refine roundedPattern_rounds_or_zero _ (Nat.pos_of_ne_zero hne) ?_
    rw [f32_div_f32]
    push_cast
    ring
  rw [fmul_of_isFinite ha hb]
  refine ⟨hmul, hmul_zero, fun ha0 hb0 => (hdiv hb0).1 (div_ne_zero ha0 hb0), fun ha0 hb0 => (hdiv hb0).2 ?_⟩
  rw [ha0, zero_div]

/-- Settles O44: the operations on data with an infinity or a zero divisor, and the Words of the answers. -/
theorem floatInfinityResults : Obligations.FloatInfinityResults := by
  unfold Obligations.FloatInfinityResults
  intro a b
  refine ⟨fun ha hb => ?_, fun ha hb => ?_, fun ha hb hs => ?_, fun ha hb hs => ?_, ?_, fun ha hb => ?_,
    fun ha hb => ?_, fun ha ha0 hb => ?_⟩
  · simp [fadd, fsub, unpackFloat_of_isInfinite ha, unpackFloat_of_isFinite hb, sumOf, negateDatum,
      signedPattern_of_isInfinite ha]
  · simp [fadd, fsub, unpackFloat_of_isInfinite hb, unpackFloat_of_isFinite ha, sumOf, negateDatum,
      signedPattern_of_isInfinite hb, infinityWord_eq]
  · simp [fadd, unpackFloat_of_isInfinite ha, unpackFloat_of_isInfinite hb, sumOf, ← hs,
      signedPattern_of_isInfinite ha]
  · simp [fsub, unpackFloat_of_isInfinite ha, unpackFloat_of_isInfinite hb, sumOf, negateDatum,
      (Bool.eq_not_of_ne hs).symm, signedPattern_of_isInfinite ha]
  · rintro (⟨ha, hbn, hb0⟩ | ⟨hb, han, ha0⟩)
    · rcases isInfinite_or_isFinite hbn with hb | hb
      · simp [fmul, unpackFloat_of_isInfinite ha, unpackFloat_of_isInfinite hb, productOf, infinityWord_eq]
      · simp [fmul, unpackFloat_of_isInfinite ha, unpackFloat_of_isFinite hb, productOf, infinityWord_eq,
          patternUnits_ne_zero hb0]
    · rcases isInfinite_or_isFinite han with ha | ha
      · simp [fmul, unpackFloat_of_isInfinite ha, unpackFloat_of_isInfinite hb, productOf, infinityWord_eq]
      · simp [fmul, unpackFloat_of_isFinite ha, unpackFloat_of_isInfinite hb, productOf, infinityWord_eq,
          patternUnits_ne_zero ha0]
  · simp [fdiv, unpackFloat_of_isInfinite ha, unpackFloat_of_isFinite hb, quotientOf, infinityWord_eq]
  · simp [fdiv, unpackFloat_of_isInfinite hb, unpackFloat_of_isFinite ha, quotientOf, zeroWord_eq]
  · simp [fdiv, unpackFloat_of_isFinite ha, unpackFloat_of_isFinite hb.isFinite, quotientOf, infinityWord_eq,
      patternUnits_ne_zero ha0, patternUnits_eq_zero_iff.2 (isZero_iff.1 hb)]

/-- Settles O45: each operation has no answer exactly in its listed cases, and every answer is no NaN. -/
theorem floatResultIsNaNExactlyWhenListed : Obligations.FloatResultIsNaNExactlyWhenListed := by
  unfold Obligations.FloatResultIsNaNExactlyWhenListed
  intro a b
  refine ⟨?_, ?_, ?_, ?_, ?_⟩
  · rw [fadd, isNaN_getD_nanResult_iff (sumOf_noNaN _ _), sumOf_eq_none_iff]
    simp [unpackFloat_eq_nan_iff, unpackFloat_eq_infinite_iff, and_assoc]
  · rw [fsub, isNaN_getD_nanResult_iff (sumOf_noNaN _ _), sumOf_negateDatum_eq_none_iff]
    simp [unpackFloat_eq_nan_iff, unpackFloat_eq_infinite_iff, and_assoc, eq_comm (a := isNegative b)]
  · rw [fmul, isNaN_getD_nanResult_iff (productOf_noNaN _ _), productOf_eq_none_iff]
    simp [unpackFloat_eq_nan_iff, unpackFloat_eq_infinite_iff, unpackFloat_eq_zero_iff]
  · rw [fdiv, isNaN_getD_nanResult_iff (quotientOf_noNaN _ _), quotientOf_eq_none_iff]
    simp [unpackFloat_eq_nan_iff, unpackFloat_eq_infinite_iff, unpackFloat_eq_zero_iff]
  · rw [frem, isNaN_getD_nanResult_iff (remainderOf_noNaN _ _), remainderOf_eq_none_iff]
    simp [unpackFloat_eq_nan_iff, unpackFloat_eq_infinite_iff, unpackFloat_eq_zero_iff]

/-- Settles O46: the remainder of the units is representable, so that the one rounding leaves it as it is. -/
theorem floatRemainderIsExactTruncatedDivision : Obligations.FloatRemainderIsExactTruncatedDivision := by
  unfold Obligations.FloatRemainderIsExactTruncatedDivision
  intro a b ha
  have hinfinite (hb : IsInfinite b) : frem a b = a := by
    rw [frem, unpackFloat_of_isFinite ha, unpackFloat_of_isInfinite hb, remainderOf, Option.getD_some,
      roundedPattern_patternUnits (isFinite_iff.1 ha).le, signedPattern_isNegative_magnitudeBits]
  refine ⟨fun hb hb0 => ?_, hinfinite, fun ha0 hbn hb0 => ?_⟩
  · obtain ⟨r, hra, hr, hrem⟩ := frem_eq_signedPattern ha hb (f32_ne_zero_iff.1 hb0)
    have hfin : r < infinityPattern := hra.trans_lt (isFinite_iff.1 ha)
    have hlt := hfin.trans infinityPattern_lt
    rw [hrem]
    refine ⟨isFinite_iff.2 (by rwa [magnitudeBits_signedPattern hlt]), ?_, ?_, isNegative_signedPattern hlt⟩
    · rw [f32_signedPattern hlt, hr, f32_sub_mul_truncated]
    · rw [f32_signedPattern hlt, hr, f32_eq b, mul_div_assoc, mul_div_assoc, abs_signFactor_mul, abs_signFactor_mul,
        abs_of_nonneg (by positivity), abs_of_nonneg (by positivity), div_lt_div_iff_of_pos_right (by positivity),
        Nat.cast_lt]
      exact Nat.mod_lt _ (Nat.pos_of_ne_zero (f32_ne_zero_iff.1 hb0))
  · rcases isInfinite_or_isFinite hbn with hb | hb
    · exact hinfinite hb
    · obtain ⟨r, hra, -, hrem⟩ := frem_eq_signedPattern ha hb (patternUnits_ne_zero hb0)
      have hr : r = magnitudeBits a := by
        rw [isZero_iff.1 ha0] at hra ⊢
        exact Nat.le_zero.1 hra
      rw [hrem, hr, signedPattern_isNegative_magnitudeBits]

/-- Settles O47: the two functions are one sum on data, where the answer is no NaN. -/
theorem floatDifferenceIsTheSumWithTheSignInverted : Obligations.FloatDifferenceIsTheSumWithTheSignInverted := by
  unfold Obligations.FloatDifferenceIsTheSumWithTheSignInverted
  intro a b hnan
  rw [fsub, isNaN_getD_nanResult_iff (sumOf_noNaN _ _)] at hnan
  obtain ⟨w, hw⟩ := Option.ne_none_iff_exists'.1 hnan
  rw [fsub, fadd, unpackFloat_xor_sign, hw, Option.getD_some, Option.getD_some]

end Sys2Proof.Machine
end
